-- ==== Sys2Proof/Word.lean ====
section
/-! DEFINITION. The value types of 00_scope.md rules R6 and R8: bytes, words, symbols, and the two word arrays. -/

namespace Sys2Proof

/-- An 8-bit byte of the message, the padding or the digest (R6). -/
abbrev Byte := BitVec 8

/-- A 32-bit word: a word of State, a slot of the schedule, a command word, a response word (R6, R8). -/
abbrev Word := BitVec 32

/-- A 16-bit symbol at the data ports (R8). -/
abbrev Sym := BitVec 16

/-- The five words of State `H` (R20). -/
abbrev DigestWords := Vector Word 5

/-- The sixteen slots of the Word Schedule `W` (R21). -/
abbrev Schedule := Vector Word 16

end Sys2Proof
end

