-- ==== Sys2Proof/Syntax.lean ====
section
/-! DEFINITION. The six commands of 30_encoding.md rule R90. -/

namespace Sys2Proof

/-- The type tag of the input, 30_encoding.md rule R89. -/
inductive Kind where
  | string
  | number
  | null
  | object
  /-- The codes 4 to 7, not assigned. -/
  | reserved (code : BitVec 3)
  deriving DecidableEq, Repr, Inhabited

/-- The commands, one constructor per row of spec/opcode_table.json. -/
inductive Instr where
  /-- `BIND fid`, format B (R82, R120). -/
  | bind (fid : BitVec 8)
  /-- `START kind`, format K (R83, R124). -/
  | start (kind : Kind)
  /-- `PUSH sym`, format S (R84, R150). -/
  | push (sym : Sym)
  /-- `FINAL`, format N (R85, R142). -/
  | final
  /-- `POP`, format N (R85, R170). -/
  | pop
  /-- `STAT`, format N (R85, R128). -/
  | stat
  deriving DecidableEq, Repr, Inhabited

end Sys2Proof
end

