-- ==== Sys2Proof/WellFormed.lean ====
section
/-! DEFINITION. Which terms of `Instr` are commands of R90: the operand widths are in the types, so the one check
is that a reserved `kind` is one of the unassigned codes of R89. -/

namespace Sys2Proof

/-- R89: codes 0 to 3 are named, so `reserved` stands for 4 to 7 only. -/
def Kind.WellFormed : Kind → Bool
  | .string => true
  | .number => true
  | .null => true
  | .object => true
  | .reserved code => decide (4#3 ≤ code)

/-- The commands a word can spell (R90). -/
def Instr.WellFormed : Instr → Bool
  | .bind _ => true
  | .start kind => kind.WellFormed
  | .push _ => true
  | .final => true
  | .pop => true
  | .stat => true

end Sys2Proof
end

