-- ==== Sys2Proof/Decode.lean ====
section
/-! DEFINITION. Decoding of command words, 30_encoding.md rules R81 to R95: total on all 2^32 words, no state.
Then the encoder, and the opcode map of R90 as data. -/

namespace Sys2Proof

/-- Why a word is `Illegal` (R92, R93). The engine's answer is the same for both; the names are the model's (log 18). -/
inductive IllegalReason where
  /-- Opcode 0x0 or 0x7 to 0xF (R92). -/
  | reservedOpcode
  /-- An assigned opcode with a 1 in a reserved bit of its format (R93). -/
  | reservedBits
  deriving DecidableEq, Repr

/-- The outcomes of decoding, R91: a command with its operand, or `Illegal`. -/
inductive Decoded where
  | command (i : Instr)
  | illegal (why : IllegalReason)
  deriving DecidableEq, Repr

/-- Bits 31:28 (R81). -/
def opcode (w : Word) : BitVec 4 := w.extractLsb' 28 4

/-- The type tags of R89 by number. -/
def Kind.ofCode (code : BitVec 3) : Kind :=
  if code = 0#3 then .string
  else if code = 1#3 then .number
  else if code = 2#3 then .null
  else if code = 3#3 then .object
  else .reserved code

/-- The number of a type tag, R89. -/
def Kind.code : Kind → BitVec 3
  | .string => 0#3
  | .number => 1#3
  | .null => 2#3
  | .object => 3#3
  | .reserved code => code

/-- A command is legal when the reserved bits of its format are 0 (R93). -/
def legalIfZero {n : Nat} (reserved : BitVec n) (i : Instr) : Decoded :=
  if reserved = 0#n then .command i else .illegal .reservedBits

/-- Decoding, R91: the opcode first, then the reserved bits of its format, then the operand. -/
def decode (w : Word) : Decoded :=
  if opcode w = 0x1#4 then legalIfZero (w.extractLsb' 8 20) (.bind (w.extractLsb' 0 8))
  else if opcode w = 0x2#4 then legalIfZero (w.extractLsb' 3 25) (.start (Kind.ofCode (w.extractLsb' 0 3)))
  else if opcode w = 0x3#4 then legalIfZero (w.extractLsb' 16 12) (.push (w.extractLsb' 0 16))
  else if opcode w = 0x4#4 then legalIfZero (w.extractLsb' 0 28) .final
  else if opcode w = 0x5#4 then legalIfZero (w.extractLsb' 0 28) .pop
  else if opcode w = 0x6#4 then legalIfZero (w.extractLsb' 0 28) .stat
  else .illegal .reservedOpcode

/-- The word of a command: formats B, K, S, N of R81 with the opcodes of R90. -/
def encode : Instr → Word
  | .bind fid => 0x1#4 ++ 0#20 ++ fid
  | .start kind => 0x2#4 ++ 0#25 ++ kind.code
  | .push sym => 0x3#4 ++ 0#12 ++ sym
  | .final => 0x4#4 ++ 0#28
  | .pop => 0x5#4 ++ 0#28
  | .stat => 0x6#4 ++ 0#28

/-- One row of R90. -/
structure OpcodeRow where
  mnemonic : String
  pattern : Word
  mask : Word
  deriving DecidableEq, Repr

/-- R90: a word spells the row's command exactly when `(w & mask) == match`. -/
def OpcodeRow.spells (row : OpcodeRow) (w : Word) : Bool := w &&& row.mask == row.pattern

/-- The row of a command in R90. -/
def rowOf : Instr → OpcodeRow
  | .bind _ => ⟨"BIND", 0x10000000#32, 0xFFFFFF00#32⟩
  | .start _ => ⟨"START", 0x20000000#32, 0xFFFFFFF8#32⟩
  | .push _ => ⟨"PUSH", 0x30000000#32, 0xFFFF0000#32⟩
  | .final => ⟨"FINAL", 0x40000000#32, 0xFFFFFFFF#32⟩
  | .pop => ⟨"POP", 0x50000000#32, 0xFFFFFFFF#32⟩
  | .stat => ⟨"STAT", 0x60000000#32, 0xFFFFFFFF#32⟩

/-- The opcode map of R90, in its order. -/
def opcodeTable : List OpcodeRow :=
  [rowOf (.bind 0), rowOf (.start .string), rowOf (.push 0), rowOf .final, rowOf .pop, rowOf .stat]

/-- The command word made of the low `nbits` bits of `w`, the bits above them 0. A command word is one indivisible
32-bit transfer (R58), so there is no byte order to choose. -/
def tableWord (nbits w : Nat) : Word := BitVec.ofNat 32 (w % 2 ^ nbits)

/-- What the decoder reads from the bits of an opcode-table row. -/
def decodeTableWord (nbits w : Nat) : Option Instr :=
  match decode (tableWord nbits w) with
  | .command i => some i
  | .illegal _ => none

end Sys2Proof
end

