-- ==== Sys2Proof/Config.lean ====
section
/-! DEFINITION. The parameters of 00_scope.md rule R7, which the spec leaves OPEN, and the free values of
10_state.md rule R36. None has a body: nothing can be proved about which values they are. -/

namespace Sys2Proof

/-- A compression function satisfies the contract of R181 by its type: total, pure, and with no way to write
the schedule (log 2, log 15). -/
abbrev CompressionFn := DigestWords → Schedule → DigestWords

/-- What an implementation fixes for the life of an engine (R7, R61). -/
structure Config where
  /-- `IV`, the five constants `START` writes to State (R7; log 1). -/
  iv : DigestWords
  /-- The entries of the table `Fn` for identifiers other than 0. Entry 0 is fixed by R185, so
  `Machine.fnTable` never consults this field there (log 2). -/
  table : BitVec 8 → Option CompressionFn
  /-- `PORT_MAP`: the addresses of a command and a response register, if the platform maps them (R61). No rule
  depends on it (log 3). -/
  portMap : Option (Nat × Nat)
  deriving Inhabited

/-- The parameters of the engine that `exec` and `step` describe, left open (log 1, log 2). -/
opaque Config.platform : Config

/-- The registers a reset event leaves unspecified (R36). -/
structure CallRegs where
  H : DigestWords
  W : Schedule
  acc : Word
  len : BitVec 61
  pos : BitVec 6
  oi : BitVec 5
  deriving DecidableEq, Repr, Inhabited

/-- What the unspecified registers hold after reset event number `n` (R36, R240): free values. That they depend on `n`
alone, for every engine and whatever happened before, is the model's choice (DESIGN CHOICE, log 5). -/
opaque Config.unspecifiedRegs : Nat → CallRegs

end Sys2Proof
end

