-- ==== Sys2Proof/Machine/State.lean ====
section
/-! DEFINITION. The architectural state of one engine, 10_state.md rules R20 to R38, its value at reset, and the
reasons a step can stop. -/

namespace Sys2Proof.Machine

/-- The five phases of R26; no other value is ever held. -/
inductive Phase where
  | unbound
  | idle
  | absorb
  | done
  | dead
  deriving DecidableEq, Repr, Inhabited

/-- The response codes of R200; 7 to 15 are never produced. -/
inductive Code where
  | ok
  | typeMismatch
  | rangeError
  | capabilityNotBound
  | seqError
  | illegalCmd
  | lenOverflow
  deriving DecidableEq, Repr, Inhabited

/-- What the host does between two steps: it presents a command word (R80) or the reset event occurs (R240). -/
inductive HostEvent where
  | command (w : Word)
  | reset
  deriving DecidableEq, Repr

/-- One engine. The first nine fields are the tuple of 10_state.md; the last three are the model's own (log 5, 6, 7). -/
structure State where
  /-- State, R20. -/
  H : DigestWords
  /-- Word Schedule, R21. -/
  W : Schedule
  /-- Byte accumulator, R22. -/
  acc : Word
  /-- Message byte counter, R28. -/
  len : BitVec 61
  /-- Block position, R27. -/
  pos : BitVec 6
  /-- Output index, R28. -/
  oi : BitVec 5
  /-- Phase, R26. -/
  ph : Phase
  /-- Captured capability, R35: none or a function identifier. -/
  fn : Option (BitVec 8)
  /-- Latched error, R30; `ok` stands for 0. -/
  lerr : Code
  /-- The response port: the word the last step produced, if it produced one (R80; log 7). -/
  rsp : Option Word
  /-- What the host presents next, in order (R5, R80, R240; log 6). -/
  inputs : List HostEvent
  /-- How many reset events have occurred: selects the free values of R36 (log 5). -/
  resets : Nat
  deriving DecidableEq, Repr, Inhabited

/-- The reasons a step stops. Both are raised only in states that break the invariant of R38, which no run
reaches; stopping there is safe. -/
inductive Fault where
  /-- Raised by `compress`, so by `PUSH` and `FINAL`: the block is complete and no function is bound, which R182
  says cannot occur. Safe (log 9). -/
  | compressUnbound
  /-- Raised by `POP`: the output index is above 19, which R28 excludes. Safe (log 10). -/
  | digestIndexOutOfRange
  deriving DecidableEq, Repr

/-- Why there is no meaning for a command. No meaning of this model ends in a refusal. -/
inductive Refusal where
  /-- Raised by an arm of `exec` that has no meaning yet; no arm does. Safe. -/
  | notModelled (mnemonic : String)
  deriving DecidableEq, Repr

/-- The machine right after reset, R36: `UNBOUND`, nothing bound, no latched error. The registers R36 calls
unspecified hold 0 (log 4), nothing is presented (log 6) and no response has been produced (R240). -/
def State.reset : State where
  H := Vector.replicate 5 0
  W := Vector.replicate 16 0
  acc := 0
  len := 0
  pos := 0
  oi := 0
  ph := .unbound
  fn := none
  lerr := .ok
  rsp := none
  inputs := []
  resets := 0

end Sys2Proof.Machine
end

