-- ==== Sys2Proof/Machine/Flags.lean ====
section
/-! DEFINITION. The status items and the response word: 10_state.md R26, R29 to R31; 30_encoding.md R86, R87. The
engine has no arithmetic flags (R29). -/

namespace Sys2Proof.Machine

/-- The value of a phase, R26, in its 4-bit field (bit 27 of the response is always 0, R31). -/
def Phase.bits : Phase → BitVec 4
  | .unbound => 0
  | .idle => 1
  | .absorb => 2
  | .done => 3
  | .dead => 4

/-- The number of a code, R200. -/
def Code.bits : Code → BitVec 4
  | .ok => 0
  | .typeMismatch => 1
  | .rangeError => 2
  | .capabilityNotBound => 3
  | .seqError => 4
  | .illegalCmd => 5
  | .lenOverflow => 6

/-- `bound`, R29: the predicate `fn != none`. -/
def State.bound (s : State) : Bool := s.fn.isSome

/-- The `STATUS` group, bits 27:16 of every response (R31): `ph`, `bound`, three zero bits, `lerr`. -/
def State.status (s : State) : BitVec 12 := s.ph.bits ++ BitVec.ofBool s.bound ++ 0#3 ++ s.lerr.bits

/-- The response word of R86 for a code, the state after the command, and the data field. -/
def responseWord (code : Code) (data : Sym) (s : State) : Word := code.bits ++ s.status ++ data

/-- The fields of a response word, R86. -/
def rspCode (r : Word) : BitVec 4 := r.extractLsb' 28 4
def rspPhase (r : Word) : BitVec 4 := r.extractLsb' 24 4
def rspBound (r : Word) : BitVec 1 := r.extractLsb' 23 1
def rspZero (r : Word) : BitVec 3 := r.extractLsb' 20 3
def rspLerr (r : Word) : BitVec 4 := r.extractLsb' 16 4
def rspData (r : Word) : Sym := r.extractLsb' 0 16

end Sys2Proof.Machine
end

