-- ==== Sys2Proof/Machine/Operands.lean ====
section
/-! DEFINITION. The Byte Codec (40_byte_codec.md), the check of the type tag (R88, R89), and the big-endian
conversions between bytes and wider values (20_memory.md R54, R55; 00_scope.md R15). -/

namespace Sys2Proof.Machine

/-- `charToByte`, R110: the code of a symbol, or `none` where it raises `RangeError` (a code above 255). -/
def charToByte (sym : Sym) : Option Byte :=
  if sym.toNat > 255 then none else some (sym.extractLsb' 0 8)

/-- `byteToChar`, R112: the symbol of a number in [0,255], or `none` where it raises `RangeError`. -/
def byteToChar (b : Nat) : Option Sym :=
  if b > 255 then none else some ((BitVec.ofNat 8 b).setWidth 16)

/-- `kind` is compared with 0, R88: only `STRING` is accepted (R89). -/
def kindIsString : Kind → Bool
  | .string => true
  | .number => false
  | .null => false
  | .object => false
  | .reserved _ => false

/-- Byte `j` of a word, 0 the most significant: `(v >> (8*(3-j))) & 255` (R12 (e), R15, R55 (c)). -/
def byteOfWord (v : Word) (j : Nat) : Nat := (v.toNat >>> (8 * (3 - j))) &&& 255

/-- The eight numbers `(n >> (8*k)) & 255`, `k` from 7 down to 0: the length field in the order `FINAL` feeds it
(R142, R55 (b)). -/
def lengthBytes (n : Nat) : List Nat := [7, 6, 5, 4, 3, 2, 1, 0].map fun k => (n >>> (8 * k)) &&& 255

/-- The packer's word: four bytes, the first most significant (R55 (a)). -/
def packWord (b0 b1 b2 b3 : Byte) : Word :=
  (b0.setWidth 32 <<< 24) ||| (b1.setWidth 32 <<< 16) ||| (b2.setWidth 32 <<< 8) ||| b3.setWidth 32

/-- The bit length of a message of `len` bytes, as a natural number (R12 (b), R144). -/
def bitLength (len : BitVec 61) : Nat := 8 * len.toNat

end Sys2Proof.Machine
end

