-- ==== Sys2Proof/Machine/Ops.lean ====
section
/-! DEFINITION. The operations the commands share: writes of single registers, the response, the error classes of
60_exceptions.md, the admission check of R209, the compression capability, `Compress`, `Feed`, and the events. -/

namespace Sys2Proof.Machine

/-! ### Writes of registers -/

/-- `acc <- ((acc << 8) | b)[31:0]`, R153. -/
def State.shiftIn (s : State) (b : Byte) : State := { s with acc := (s.acc <<< 8) ||| b.setWidth 32 }

/-- `W[k] <- v`, R153; the index is a 4-bit slice, so it is in range (R154). -/
def State.writeSlot (s : State) (k : BitVec 4) (v : Word) : State := { s with W := s.W.set k.toNat v k.isLt }

/-- `H <- v`, all five words at once (R11, R182). -/
def State.setH (s : State) (h : DigestWords) : State := { s with H := h }

/-- `pos <- (pos + 1) mod 64`, R153. -/
def State.advancePos (s : State) : State := { s with pos := s.pos + 1 }

/-- `len <- len + 1`, R150. -/
def State.countByte (s : State) : State := { s with len := s.len + 1 }

/-- `oi <- n`, R170. -/
def State.setOi (s : State) (n : BitVec 5) : State := { s with oi := n }

/-- `ph <- p`, R14. -/
def State.setPh (s : State) (p : Phase) : State := { s with ph := p }

/-- The one write of `fn`, R120: the capability is captured and the engine is constructed. -/
def State.captureFn (s : State) (fid : BitVec 8) : State := { s with fn := some fid, ph := .idle }

/-- The values at the start of every call, R37. -/
def State.beginCall (s : State) (iv : DigestWords) : State :=
  { s with H := iv, W := Vector.replicate 16 0, acc := 0, len := 0, pos := 0, oi := 0, lerr := .ok, ph := .absorb }

/-- An aborting or fatal error latches its code and moves the phase (R211, R213). -/
def State.latch (s : State) (e : Code) (p : Phase) : State := { s with ph := p, lerr := e }

/-! ### The response -/

/-- `respond(code, data)`, R14: the response word is built from the state after all writes of the command. -/
def State.respond (s : State) (code : Code) (data : Sym) : State := { s with rsp := some (responseWord code data s) }

/-- A step that produces no response leaves nothing on the response port (R80, R240). -/
def State.silent (s : State) : State := { s with rsp := none }

/-! ### Errors -/

/-- The three classes of error, R210 to R213. -/
inductive ErrorClass where
  | abort
  | refusal
  | fatal
  deriving DecidableEq, Repr

/-- Taking an error, R210: the effects of its class and no others, then the response `(code, data = 0)` with the
status after those effects. There is no saved context, no handler and no vector; and no return: the next accepted
`START` clears `lerr` (R214, R215; `State.beginCall`). -/
def takeError (cls : ErrorClass) (e : Code) (s : State) : State :=
  match cls with
  | .abort => (s.latch e .idle).respond e 0
  | .refusal => s.respond e 0
  | .fatal => (s.latch e .dead).respond e 0

/-- The admission check, steps 3 to 5 of R209, for every command but `BIND` and `STAT`: the code of the refusal, or
`none` when the phase admits the command. -/
def admission (admitted : Phase → Bool) (s : State) : Option Code :=
  if s.ph = .unbound ∨ s.ph = .dead then some .capabilityNotBound
  else if admitted s.ph then none
  else some .seqError

/-- How the pseudocode of a command stops before its end: it raises an error (R14) in the state reached, or it meets
a condition the rules exclude. -/
inductive Stop where
  | raise (e : Code) (s : State)
  | fault (r : Fault)
  deriving DecidableEq, Repr

/-- The end of a command's pseudocode: `respond(OK, 0)`, or the abort of R211, or the model's fault. -/
def conclude : Except Stop State → Host.Outcome State Fault Refusal
  | .ok s => .next (s.respond .ok 0)
  | .error (.raise e s) => .next (takeError .abort e s)
  | .error (.fault r) => .fault r

/-! ### The compression capability -/

/-- The placeholder `F_id` of R185: it leaves State unchanged. -/
def placeholder : CompressionFn := fun S _ => S

/-- The table `Fn` of R184: entry 0 is the placeholder on every platform, the other entries are the parameter. -/
def fnTable (c : Config) (fid : BitVec 8) : Option CompressionFn := if fid = 0#8 then some placeholder else c.table fid

/-- `F = Fn(fn)`, R182, when a capability is bound. -/
def boundFn (c : Config) (s : State) : Option CompressionFn := s.fn.bind (fnTable c)

/-- `Compress()`, R182: `H <- F(H, W)`. -/
def compress (c : Config) (s : State) : Except Stop State :=
  match boundFn c s with
  | some F => .ok (s.setH (F s.H s.W))
  | none => .error (.fault .compressUnbound)

/-! ### `Feed` -/

/-- The word is complete when `pos[1:0] = 3` (R153). -/
def completesWord (pos : BitVec 6) : Bool := pos.extractLsb' 0 2 == 3#2

/-- The block is complete when `pos = 63` (R153). -/
def completesBlock (pos : BitVec 6) : Bool := pos == 63#6

/-- The first half of `Feed`, R153: shift the byte in and, when the word is complete, write it to `W[pos[5:2]]`. -/
def packByte (b : Byte) (s : State) : State :=
  let s1 := s.shiftIn b
  if completesWord s.pos then s1.writeSlot (s.pos.extractLsb' 2 4) s1.acc else s1

/-- `Feed(b)`, R153. All three tests use the value of `pos` on entry. -/
def feed (c : Config) (b : Byte) (s : State) : Except Stop State := do
  let s1 := packByte b s
  let s2 ← if completesBlock s.pos then compress c s1 else pure s1
  pure s2.advancePos

/-- `Feed(charToByte(byteToChar(n)))`, R142: a generated byte passes through the codec, which would raise
`RangeError` on a number above 255. -/
def feedGenerated (c : Config) (n : Nat) (s : State) : Except Stop State :=
  match (byteToChar n).bind charToByte with
  | some b => feed c b s
  | none => .error (.raise .rangeError s)

/-- Generated bytes fed one after the other. -/
def feedAllGenerated (c : Config) : List Nat → State → Except Stop State
  | [], s => pure s
  | n :: ns, s => feedGenerated c n s >>= feedAllGenerated c ns

/-- Step 2 of `FINAL`, R142: `while pos != 56: Feed(0x00)`. The first argument bounds the iterations; 63 are enough
from any `pos` (R143; log 11). -/
def zeroFill (c : Config) : Nat → State → Except Stop State
  | 0, s => pure s
  | n + 1, s => if s.pos = 56#6 then pure s else feedGenerated c 0x00 s >>= zeroFill c n

/-! ### Events -/

/-- The reset event, R240: `ph <- UNBOUND`, `fn <- none`, `lerr <- 0`, every other register unspecified, no response.
The unspecified registers take free values that depend on the reset count alone, so engines, or histories, with equal
counts get equal ones; R36 says nothing of that (DESIGN CHOICE, log 5). -/
def resetEvent (s : State) : State :=
  let u := Config.unspecifiedRegs s.resets
  { s with H := u.H, W := u.W, acc := u.acc, len := u.len, pos := u.pos, oi := u.oi, ph := .unbound, fn := none,
           lerr := .ok, rsp := none, resets := s.resets + 1 }

/-- The answer to a word that decodes to `Illegal`, R206: `IllegalCmd`, no state change, in any phase. -/
def answerIllegal (s : State) : State := takeError .refusal .illegalCmd s

/-- The first event presented, and the state once it is taken from the port. -/
def nextEvent (s : State) : Option (HostEvent × State) :=
  match s.inputs with
  | [] => none
  | e :: rest => some (e, { s with inputs := rest })

/-- The host presents a command word as the next event (R80). -/
def present (w : Word) (s : State) : State := { s with inputs := .command w :: s.inputs }

end Sys2Proof.Machine
end

