-- ==== Sys2Proof/Machine/BlockLoop.lean ====
section
/-! DEFINITION. `PUSH`: 43_block_loop.md rules R150 to R152. -/

namespace Sys2Proof.Machine

/-- The most message bytes a call accepts, `2^61 - 1` (R28, R151). -/
def maxLen : BitVec 61 := 0x1FFFFFFFFFFFFFFF#61

/-- The pseudocode of `PUSH` after admission, R150: `RangeError` before `LenOverflow` (R209), then the byte is fed
and counted. -/
def pushBody (c : Config) (sym : Sym) (s : State) : Except Stop State :=
  match charToByte sym with
  | none => .error (.raise .rangeError s)
  | some b =>
    if s.len = maxLen then .error (.raise .lenOverflow s)
    else do
      let s1 ← feed c b s
      pure s1.countByte

/-- `PUSH` and `FINAL` are admitted in `ABSORB` only (R142, R150). -/
def absorbAdmitted (p : Phase) : Bool := p == .absorb

/-- `PUSH sym`, R150, under parameters `c`. -/
def pushUnder (c : Config) (sym : Sym) (s : State) : Host.Outcome State Fault Refusal :=
  match admission absorbAdmitted s with
  | some e => .next (takeError .refusal e s)
  | none => conclude (pushBody c sym s)

/-- `PUSH sym` on the platform's engine. -/
def execPush (sym : Sym) (s : State) : Host.Outcome State Fault Refusal := pushUnder Config.platform sym s

end Sys2Proof.Machine
end

