-- ==== Sys2Proof/Machine/CallControl.lean ====
section
/-! DEFINITION. `BIND`, `START`, `STAT`: 41_call_control.md. -/

namespace Sys2Proof.Machine

/-- `BIND fid`, R120 to R122, under parameters `c`. -/
def bindUnder (c : Config) (fid : BitVec 8) (s : State) : Host.Outcome State Fault Refusal :=
  match s.ph with
  | .dead => .next (takeError .refusal .capabilityNotBound s)
  | .unbound =>
    match fnTable c fid with
    | none => .next (takeError .fatal .capabilityNotBound s)
    | some _ => .next ((s.captureFn fid).respond .ok 0)
  | .idle => .next (takeError .refusal .seqError s)
  | .absorb => .next (takeError .refusal .seqError s)
  | .done => .next (takeError .refusal .seqError s)

/-- `BIND fid` on the platform's engine. -/
def execBind (fid : BitVec 8) (s : State) : Host.Outcome State Fault Refusal := bindUnder Config.platform fid s

/-- The phases that admit `START`: every bound one (R124, R126). -/
def startAdmitted : Phase → Bool
  | .idle => true
  | .absorb => true
  | .done => true
  | .unbound => false
  | .dead => false

/-- `START kind`, R124 to R127, under parameters `c`. -/
def startUnder (c : Config) (kind : Kind) (s : State) : Host.Outcome State Fault Refusal :=
  match admission startAdmitted s with
  | some e => .next (takeError .refusal e s)
  | none =>
    conclude (if kindIsString kind then .ok (s.beginCall c.iv) else .error (.raise .typeMismatch s))

/-- `START kind` on the platform's engine. -/
def execStart (kind : Kind) (s : State) : Host.Outcome State Fault Refusal := startUnder Config.platform kind s

/-- `STAT`, R128: answered OK in every phase, no state written. -/
def execStat (s : State) : Host.Outcome State Fault Refusal := .next (s.respond .ok 0)

end Sys2Proof.Machine
end

