-- ==== Sys2Proof/Machine/Padding.lean ====
section
/-! DEFINITION. `FINAL`: 42_padding.md rules R142 to R145. -/

namespace Sys2Proof.Machine

/-- The pseudocode of `FINAL` after admission, R142: the sentinel, the zero fill, the length, then `DONE`. `len` is
not changed by the padding bytes. -/
def finalBody (c : Config) (s : State) : Except Stop State := do
  let s1 ← feedGenerated c 0x80 s
  let s2 ← zeroFill c 64 s1
  let s3 ← feedAllGenerated c (lengthBytes (bitLength s2.len)) s2
  pure ((s3.setOi 0).setPh .done)

/-- `FINAL`, R142, under parameters `c`. -/
def finalUnder (c : Config) (s : State) : Host.Outcome State Fault Refusal :=
  match admission absorbAdmitted s with
  | some e => .next (takeError .refusal e s)
  | none => conclude (finalBody c s)

/-- `FINAL` on the platform's engine. -/
def execFinal (s : State) : Host.Outcome State Fault Refusal := finalUnder Config.platform s

end Sys2Proof.Machine
end

