-- ==== Sys2Proof/Machine/Serializer.lean ====
section
/-! DEFINITION. `POP`: 44_serializer.md rules R170 to R174. -/

namespace Sys2Proof.Machine

/-- The word index `oi >> 2` and the byte within the word `oi & 3` (R170). -/
def digestWordIndex (oi : BitVec 5) : Nat := oi.toNat >>> 2
def digestByteIndex (oi : BitVec 5) : Nat := oi.toNat &&& 3

/-- The byte of the digest at `oi`, R170, or `none` when the index names no word of `H`. -/
def digestByteAt (H : DigestWords) (oi : BitVec 5) : Option Nat :=
  H[digestWordIndex oi]?.map fun v => byteOfWord v (digestByteIndex oi)

/-- The byte is consumed: `oi` advances, and the twentieth byte ends the call (R170). -/
def State.consumeByte (s : State) : State :=
  if s.oi = 19#5 then (s.setOi 0).setPh .idle else s.setOi (s.oi + 1)

/-- `POP` is admitted in `DONE` only (R170). -/
def doneAdmitted (p : Phase) : Bool := p == .done

/-- `POP`, R170. `byteToChar` never raises here (R113); its path is the abort of any `RangeError`. -/
def execPop (s : State) : Host.Outcome State Fault Refusal :=
  match admission doneAdmitted s with
  | some e => .next (takeError .refusal e s)
  | none =>
    match digestByteAt s.H s.oi with
    | none => .fault .digestIndexOutOfRange
    | some b =>
      match byteToChar b with
      | none => .next (takeError .abort .rangeError s)
      | some d => .next (s.consumeByte.respond .ok d)

end Sys2Proof.Machine
end

