-- ==== Sys2Proof/Machine/Dispatch.lean ====
section
/-! DEFINITION. One arm per command of 30_encoding.md rule R90. -/

namespace Sys2Proof.Machine

def exec (i : Instr) (s : State) : Host.Outcome State Fault Refusal :=
  match i with
  | .bind fid => Sys2Proof.Machine.execBind fid s
  | .start kind => Sys2Proof.Machine.execStart kind s
  | .push sym => Sys2Proof.Machine.execPush sym s
  | .final => Sys2Proof.Machine.execFinal s
  | .pop => Sys2Proof.Machine.execPop s
  | .stat => Sys2Proof.Machine.execStat s

end Sys2Proof.Machine
end

