-- ==== Sys2Proof/Machine/Step.lean ====
section
/-! DEFINITION. One step of an engine: one host command with its response, or the reset event (00_scope.md R5,
30_encoding.md R80). -/

namespace Sys2Proof.Machine

/-- A command word is decoded and executed, or answered `IllegalCmd` (R80, R91). -/
def runWord (w : Word) (s : State) : Host.Outcome State Fault Refusal :=
  match decode w with
  | .command i => exec i s
  | .illegal _ => .next (answerIllegal s)

/-- One step. With nothing presented the engine does nothing (R80; log 8). -/
def step (s : State) : Host.Outcome State Fault Refusal :=
  match nextEvent s with
  | none => .next s.silent
  | some (.reset, s1) => .next (resetEvent s1)
  | some (.command w, s1) => runWord w s1

/-- The host presents the word `w` as its next command (log 6). -/
def State.withFetchWord (s : State) (nbits w : Nat) : State := present (tableWord nbits w) s

end Sys2Proof.Machine
end

