-- ==== Sys2Proof/Machine/Reference.lean ====
section
/-! DEFINITION. DOC0's one operation as a function of the message: `Pad` (42_padding.md R140), the serializer
(44_serializer.md R171), and `Blocks`, `Sched`, `Run`, `digest`, `Call` (46_reference.md R190 to R193). The engine
does not use these; claims about whole calls are stated through them. What they answer outside the arguments the rules
give them is the model's choice (DESIGN CHOICE, log 23). -/

namespace Sys2Proof.Machine

/-- `BE64(n)`, R15. -/
def be64 (n : Nat) : List Byte := (lengthBytes n).map (BitVec.ofNat 8)

/-- `BE32(w)`, R15. -/
def be32 (w : Word) : List Byte := [0, 1, 2, 3].map fun j => BitVec.ofNat 8 (byteOfWord w j)

/-- The number of zero bytes, `z = (55 - L) mod 64` (R140). -/
def padZeros (L : Nat) : Nat := ((55 - (L : Int)) % 64).toNat

/-- `Pad(m)`, R140: the message, the sentinel, the zero fill and the 64-bit bit length. -/
def pad (m : List Byte) : List Byte :=
  m ++ [0x80#8] ++ List.replicate (padZeros m.length) 0x00#8 ++ be64 (8 * m.length)

/-- The first `n` 64-byte substrings of a byte string. -/
def firstBlocks : Nat → List Byte → List (List Byte)
  | 0, _ => []
  | n + 1, p => p.take 64 :: firstBlocks n (p.drop 64)

/-- `Blocks(p)`, R190. -/
def blocks (p : List Byte) : List (List Byte) := firstBlocks (p.length / 64) p

/-- The big-endian word at offsets `4k` to `4k+3` (R190). -/
def wordAt (q : List Byte) (k : Nat) : Word :=
  packWord (q.getD (4 * k) 0) (q.getD (4 * k + 1) 0) (q.getD (4 * k + 2) 0) (q.getD (4 * k + 3) 0)

/-- `Sched(q)`, R190: the sixteen words of a 64-byte block. -/
def sched (q : List Byte) : Schedule :=
  #v[wordAt q 0, wordAt q 1, wordAt q 2, wordAt q 3, wordAt q 4, wordAt q 5, wordAt q 6, wordAt q 7,
     wordAt q 8, wordAt q 9, wordAt q 10, wordAt q 11, wordAt q 12, wordAt q 13, wordAt q 14, wordAt q 15]

/-- `Run(F, S, p)`, R191: a left fold of `F` over the blocks in stream order. -/
def run (F : CompressionFn) (S : DigestWords) (p : List Byte) : DigestWords :=
  (blocks p).foldl (fun S q => F S (sched q)) S

/-- `Ser(H)`, R171. -/
def ser (H : DigestWords) : List Byte := be32 H[0] ++ be32 H[1] ++ be32 H[2] ++ be32 H[3] ++ be32 H[4]

/-- `Digest160(H)`, R171: the digest as one number, byte 0 most significant. -/
def digest160 (H : DigestWords) : BitVec 160 := H[0] ++ H[1] ++ H[2] ++ H[3] ++ H[4]

/-- The reference function `digest(F, IV, m)`, R192. -/
def digest (F : CompressionFn) (iv : DigestWords) (m : List Byte) : List Byte := ser (run F iv (pad m))

/-- The command sequence `Call(m)`, R193, for a message of 16-bit symbols (R197 uses symbols above 255). -/
def callSyms (syms : List Sym) : List Instr :=
  [.start .string] ++ syms.map .push ++ [.final] ++ List.replicate 20 .pop

/-- The symbol that presents a byte (R110, R112). -/
def symOfByte (b : Byte) : Sym := b.setWidth 16

/-- The command sequence `Call(m)`, R193, for a message of bytes. -/
def call (m : List Byte) : List Instr := callSyms (m.map symOfByte)

/-- The number a byte string spells, first byte most significant (R54): the low bits of `acc` between words. -/
def bigEndian (q : List Byte) : Nat := q.foldl (fun n b => 256 * n + b.toNat) 0

/-- The bytes `FINAL` feeds at block position `pos` for a message of `len` bytes: the sentinel, the zero bytes that
bring the position to 56, and the length (R142, R145). -/
def finalStream (pos : BitVec 6) (len : BitVec 61) : List Byte :=
  [0x80#8] ++ List.replicate (padZeros pos.toNat) 0x00#8 ++ be64 (bitLength len)

end Sys2Proof.Machine
end

