-- ==== Sys2Proof/Machine/Engine.lean ====
section
/-! DEFINITION. The engine with its parameters as an argument, as 00_scope.md rule R7 has them, and sequences of
commands with their responses (46_reference.md R193). `exec` is this engine at `Config.platform`. -/

namespace Sys2Proof.Machine

/-- The command `i` on an engine with parameters `c`. -/
def execUnder (c : Config) (i : Instr) (s : State) : Host.Outcome State Fault Refusal :=
  match i with
  | .bind fid => bindUnder c fid s
  | .start kind => startUnder c kind s
  | .push sym => pushUnder c sym s
  | .final => finalUnder c s
  | .pop => execPop s
  | .stat => execStat s

/-- The next state of an outcome, if it is one. -/
def nextOf (o : Host.Outcome State Fault Refusal) : Option State :=
  match o with
  | .next t => some t
  | .fault _ => none
  | .refused _ => none

/-- The response word an outcome shows on the response port. -/
def responseOf (o : Host.Outcome State Fault Refusal) : Option Word := (nextOf o).bind State.rsp

/-- The responses to a command sequence, in order, and the state after it; `none` if a command stopped the model. -/
def trace (c : Config) : List Instr → State → Option (List Word × State)
  | [], s => some ([], s)
  | i :: is, s =>
    match nextOf (execUnder c i s) with
    | none => none
    | some t => (trace c is t).map fun (rs, u) => (t.rsp.toList ++ rs, u)

/-- A byte stream fed to the packer (R146): the message bytes and the padding take the same path. -/
def feedAll (c : Config) : List Byte → State → Except Stop State
  | [], s => pure s
  | b :: bs, s => feed c b s >>= feedAll c bs

end Sys2Proof.Machine
end

