-- ==== Sys2Proof/Machine/Script.lean ====
section
/-! DEFINITION. The textual form of command scripts, 30_encoding.md rule R96, and the pseudo-commands of R97. It is no
part of the engine: it turns a line of text into the command words a host presents, and a response word into text. -/

namespace Sys2Proof.Machine

/-- A line or a response as characters. -/
abbrev Text := List Char

/-- One line of a script (R96, R97). -/
inductive ScriptLine where
  /-- An empty line or a comment. -/
  | blank
  /-- A command. -/
  | command (i : Instr)
  /-- `.word n`: the raw word, for illegal encodings. -/
  | word (w : Word)
  /-- `PUSHS "<text>"`. -/
  | pushs (text : List Byte)
  /-- `POPALL`. -/
  | popall
  /-- `DIGEST "<text>"`. -/
  | digestText (text : List Byte)
  /-- `DIGEST <kind>`, a kind other than `STRING`. -/
  | digestKind (kind : Kind)
  /-- `CONSTRUCT <fid>`, on any line (log 17). -/
  | construct (fid : BitVec 8)
  deriving DecidableEq, Repr

/-- `PUSHS`, R97: one `PUSH` per character, in order. -/
def pushsOf (text : List Byte) : List Instr := text.map fun b => .push (symOfByte b)

/-- `POPALL`, R97. -/
def popallOf : List Instr := List.replicate 20 .pop

/-- The command words a line stands for (R96, R97). `CONSTRUCT` stands for its `BIND` wherever it stands; R97 speaks only
of the first command after reset (DESIGN CHOICE, log 17). -/
def ScriptLine.words : ScriptLine → List Word
  | .blank => []
  | .command i => [encode i]
  | .word w => [w]
  | .pushs text => (pushsOf text).map encode
  | .popall => popallOf.map encode
  | .digestText text => ([Instr.start .string] ++ pushsOf text ++ [Instr.final] ++ popallOf).map encode
  | .digestKind kind => [encode (.start kind)]
  | .construct fid => [encode (.bind fid)]

/-! ### Reading a line -/

def skipSpaces : Text → Text
  | ' ' :: cs => skipSpaces cs
  | cs => cs

/-- The value of a digit, decimal or hexadecimal in either case. -/
def digitValue (ch : Char) : Option Nat :=
  if '0' ≤ ch ∧ ch ≤ '9' then some (ch.toNat - 48)
  else if 'a' ≤ ch ∧ ch ≤ 'f' then some (ch.toNat - 87)
  else if 'A' ≤ ch ∧ ch ≤ 'F' then some (ch.toNat - 55)
  else none

/-- Digits of a base after the value read so far: the number and the text after it. -/
def readDigits (base : Nat) : Nat → Text → Nat × Text
  | n, [] => (n, [])
  | n, ch :: cs =>
    match digitValue ch with
    | some d => if d < base then readDigits base (base * n + d) cs else (n, ch :: cs)
    | none => (n, ch :: cs)

/-- At least one digit of a base. -/
def readDigits1 (base : Nat) : Text → Option (Nat × Text)
  | [] => none
  | ch :: cs =>
    match digitValue ch with
    | some d => if d < base then some (readDigits base d cs) else none
    | none => none

/-- A number, decimal, or hexadecimal with `0x` (R96). -/
def readNumber : Text → Option (Nat × Text)
  | '0' :: 'x' :: cs => readDigits1 16 cs
  | cs => readDigits1 10 cs

/-- A symbol: a number, or one ASCII character in single quotes (R96). -/
def readSymbol : Text → Option (Nat × Text)
  | '\'' :: ch :: '\'' :: cs => if ch.toNat < 128 then some (ch.toNat, cs) else none
  | cs => readNumber cs

/-- The letters of a mnemonic or a kind's name. -/
def readName : Text → Text × Text
  | [] => ([], [])
  | ch :: cs => if ch.isAlpha || ch = '.' then (ch :: (readName cs).1, (readName cs).2) else ([], ch :: cs)

/-- A kind: one of the names of R89, or a number (R96). -/
def readKind (cs : Text) : Option (Nat × Text) :=
  match readName cs with
  | ([], _) => readNumber cs
  | (name, rest) =>
    if name = ['S', 'T', 'R', 'I', 'N', 'G'] then some (0, rest)
    else if name = ['N', 'U', 'M', 'B', 'E', 'R'] then some (1, rest)
    else if name = ['N', 'U', 'L', 'L'] then some (2, rest)
    else if name = ['O', 'B', 'J', 'E', 'C', 'T'] then some (3, rest)
    else none

/-- The rest of an ASCII text up to the closing double quote. -/
def readQuoted : Text → Option (List Byte × Text)
  | [] => none
  | '"' :: cs => some ([], cs)
  | ch :: cs =>
    if ch.toNat < 128 then (readQuoted cs).map fun (bs, rest) => (BitVec.ofNat 8 ch.toNat :: bs, rest) else none

/-- Nothing but spaces and a comment may follow (R96). -/
def endsLine (cs : Text) : Bool :=
  match skipSpaces cs with
  | [] => true
  | ch :: _ => ch == ';'

/-- The operand of a line: it stands after a space (R96) or after several (DESIGN CHOICE, log 17), it lies below the
bound, and nothing follows it. -/
def operand (read : Text → Option (Nat × Text)) (bound : Nat) (cs : Text) : Option Nat :=
  match cs with
  | ' ' :: rest =>
    match read (skipSpaces rest) with
    | some (n, after) => if n < bound ∧ endsLine after = true then some n else none
    | none => none
  | _ => none

/-- The quoted operand of a line, after one space or several (log 17). -/
def quotedOperand (cs : Text) : Option (List Byte) :=
  match cs with
  | ' ' :: rest =>
    match skipSpaces rest with
    | '"' :: text =>
      match readQuoted text with
      | some (bs, after) => if endsLine after then some bs else none
      | none => none
    | _ => none
  | _ => none

/-- A mnemonic without an operand. -/
def noOperand (line : ScriptLine) (cs : Text) : Option ScriptLine := if endsLine cs then some line else none

/-- `DIGEST` takes a text, or a kind other than `STRING` (R97). -/
def readDigest (cs : Text) : Option ScriptLine :=
  match quotedOperand cs with
  | some bs => some (.digestText bs)
  | none =>
    match operand readKind 8 cs with
    | some n => if n = 0 then none else some (.digestKind (Kind.ofCode (BitVec.ofNat 3 n)))
    | none => none

/-- One line of a script (R96, R97); `none` where the line is not of that form. A line is read without the lines before
it, so `CONSTRUCT` is accepted anywhere (DESIGN CHOICE, log 17). -/
def readLine (line : Text) : Option ScriptLine :=
  match readName (skipSpaces line) with
  | (name, rest) =>
    if name = [] then (if endsLine rest then some .blank else none)
    else if name = ['B', 'I', 'N', 'D'] then (operand readNumber 256 rest).map fun n => .command (.bind (BitVec.ofNat 8 n))
    else if name = ['S', 'T', 'A', 'R', 'T'] then
      (operand readKind 8 rest).map fun n => .command (.start (Kind.ofCode (BitVec.ofNat 3 n)))
    else if name = ['P', 'U', 'S', 'H'] then
      (operand readSymbol 65536 rest).map fun n => .command (.push (BitVec.ofNat 16 n))
    else if name = ['F', 'I', 'N', 'A', 'L'] then noOperand (.command .final) rest
    else if name = ['P', 'O', 'P'] then noOperand (.command .pop) rest
    else if name = ['S', 'T', 'A', 'T'] then noOperand (.command .stat) rest
    else if name = ['.', 'w', 'o', 'r', 'd'] then
      (operand readNumber (2 ^ 32) rest).map fun n => .word (BitVec.ofNat 32 n)
    else if name = ['P', 'U', 'S', 'H', 'S'] then (quotedOperand rest).map .pushs
    else if name = ['P', 'O', 'P', 'A', 'L', 'L'] then noOperand .popall rest
    else if name = ['D', 'I', 'G', 'E', 'S', 'T'] then readDigest rest
    else if name = ['C', 'O', 'N', 'S', 'T', 'R', 'U', 'C', 'T'] then
      (operand readNumber 256 rest).map fun n => .construct (BitVec.ofNat 8 n)
    else none

/-- A script's lines as the words the host presents, in order; `none` if a line is not of the form of R96. -/
def assemble : List Text → Option (List Word)
  | [] => some []
  | line :: rest =>
    match readLine line, assemble rest with
    | some l, some ws => some (l.words ++ ws)
    | _, _ => none

/-! ### Writing a response -/

/-- The names of the codes, R200. -/
def codeName (code : BitVec 4) : String :=
  match code.toNat with
  | 0 => "OK"
  | 1 => "TypeMismatch"
  | 2 => "RangeError"
  | 3 => "CapabilityNotBound"
  | 4 => "SeqError"
  | 5 => "IllegalCmd"
  | 6 => "LenOverflow"
  | _ => "reserved"

/-- The names of the phases, R26. -/
def phaseName (ph : BitVec 4) : String :=
  match ph.toNat with
  | 0 => "UNBOUND"
  | 1 => "IDLE"
  | 2 => "ABSORB"
  | 3 => "DONE"
  | 4 => "DEAD"
  | _ => "reserved"

/-- A number in decimal, and in hexadecimal with `0x`. -/
def decimal (n : Nat) : String := String.ofList (Nat.toDigits 10 n)
def hexadecimal (n : Nat) : String := "0x" ++ String.ofList ((Nat.toDigits 16 n).map Char.toUpper)

/-- A response in the form of R96 (log 17). -/
def showResponse (r : Word) : String :=
  "-> " ++ codeName (rspCode r) ++ " ph=" ++ phaseName (rspPhase r) ++ " bound=" ++ decimal (rspBound r).toNat ++
    " lerr=" ++ decimal (rspLerr r).toNat ++ " data=" ++ hexadecimal (rspData r).toNat

end Sys2Proof.Machine
end

