-- ==== Sys2Proof/Machine/Platform.lean ====
section
/-! DEFINITION. Several engines side by side, 60_exceptions.md rule R220 and 20_memory.md rule R63: each a complete
copy of the state with its own ports. Which engine moves next is an argument: the spec orders nothing between engines
(log 16). That all engines share one `IV` and one `Fn` is the model's choice among what R220 allows (DESIGN CHOICE,
log 22). -/

namespace Sys2Proof.Machine

/-- The engines of a platform; an engine has no identifier register, its place in the list is the model's. -/
abbrev Engines := List State

/-- Engine `k` takes one step; there is no answer where there is no such engine. Every engine steps with the constants of
`Config.platform`: R220 says engines may share them, and here they do (DESIGN CHOICE, log 22).
Two engines with equal reset counts hold equal unspecified registers right after a reset event (DESIGN CHOICE, log 5). -/
def stepEngine (k : Nat) (es : Engines) : Option (Host.Outcome Engines Fault Refusal) :=
  match es[k]? with
  | none => none
  | some s =>
    match step s with
    | .next t => some (.next (es.set k t))
    | .fault r => some (.fault r)
    | .refused r => some (.refused r)

end Sys2Proof.Machine
end

