-- ==== Sys2Proof/Safety.lean ====
section
/-! DEFINITION. What counts as a safe state and a safe run, in the terms the claims use: the invariants of
10_state.md rule R38, and which states a host can tell apart. -/

namespace Sys2Proof.Machine

/-- The phases after construction, R217: operation mode. -/
def operating (p : Phase) : Prop := p = .idle ∨ p = .absorb ∨ p = .done

/-- The invariants between commands that do not mention the message, R38 (a) to (d), (f), with R30 and R31. -/
structure Inv (c : Config) (s : State) : Prop where
  /-- R38 (c). -/
  bound_iff : s.fn ≠ none ↔ operating s.ph
  /-- R35: the captured identifier names a function. -/
  fn_defined : ∀ fid, s.fn = some fid → fnTable c fid ≠ none
  /-- R38 (a), R27. -/
  absorb_pos : s.ph = .absorb → s.pos.toNat = s.len.toNat % 64
  /-- R38 (d). -/
  absorb_oi : s.ph = .absorb → s.oi = 0
  /-- R38 (b). -/
  done_pos : s.ph = .done → s.pos = 0
  /-- R38 (d). -/
  done_oi : s.ph = .done → s.oi.toNat ≤ 19
  /-- R38 (f), and R30: 3 is latched by the failed construction only. -/
  dead_lerr : s.lerr = .capabilityNotBound ↔ s.ph = .dead
  /-- R30, R215: no error is latched before construction, during a call or at its end. -/
  clean_lerr : s.ph = .unbound ∨ s.ph = .absorb ∨ s.ph = .done → s.lerr = .ok
  /-- R31: codes 4 and 5 are never latched. -/
  latched : s.lerr ≠ .seqError ∧ s.lerr ≠ .illegalCmd

/-- R38 (a): in phase `ABSORB` after the message bytes `m`, for the bound function `F`. The complete blocks are in
`H`, the complete words of the partial block in `W`, the bytes after those in the low bits of `acc`. -/
structure Absorbed (F : CompressionFn) (iv : DigestWords) (m : List Byte) (s : State) : Prop where
  ph : s.ph = .absorb
  len : s.len.toNat = m.length
  pos : s.pos.toNat = m.length % 64
  H : s.H = run F iv (m.take (64 * (m.length / 64)))
  W : ∀ (k : Nat) (hk : k < 16), k < m.length % 64 / 4 → s.W[k] = wordAt (m.drop (64 * (m.length / 64))) k
  acc : s.acc.toNat % 2 ^ (8 * (m.length % 4)) = bigEndian (m.drop (4 * (m.length / 4)))

/-- The phases of a call in progress, in which the registers of the call are live (R35, R173). -/
def inCall (p : Phase) : Prop := p = .absorb ∨ p = .done

/-- Two engines no command sequence can tell apart (R35, R36): equal phase, binding, latched error and future
inputs, and equal registers of the call while one is in progress. -/
structure Alike (s t : State) : Prop where
  ph : s.ph = t.ph
  fn : s.fn = t.fn
  lerr : s.lerr = t.lerr
  inputs : s.inputs = t.inputs
  call : inCall s.ph → s.H = t.H ∧ s.W = t.W ∧ s.acc = t.acc ∧ s.len = t.len ∧ s.pos = t.pos ∧ s.oi = t.oi

/-- The command is refused with code `e`, R212: no effect on the state, `data` 0, the status unchanged. -/
def refusedWith (c : Config) (i : Instr) (s : State) (e : Code) : Prop :=
  execUnder c i s = .next { s with rsp := some (responseWord e 0 s) }

/-- The command ends the call with the aborting error `e`, R211: `ph <- IDLE`, `lerr <- e`, nothing else. -/
def abortedWith (c : Config) (i : Instr) (s : State) (e : Code) : Prop :=
  execUnder c i s = .next { s with ph := .idle, lerr := e, rsp := some (responseWord e 0 { s with ph := .idle, lerr := e }) }

/-- The command answers OK and leaves the engine in phase `p`. -/
def acceptedInto (c : Config) (i : Instr) (s : State) (p : Phase) : Prop :=
  ∃ t r, execUnder c i s = .next t ∧ t.rsp = some r ∧ rspCode r = 0 ∧ t.ph = p

end Sys2Proof.Machine
end

