-- ==== Sys2Proof/Certificates/Slice0/Obligations.lean ====
section
/-! DEFINITION. The statements about the model, from the numbered rules of spec/. `Config.platform` is opaque, so a
statement about `exec` or `step` holds whatever `IV` and `Fn` are; one that begins `∀ c : Config` says so of the
engine with its parameters as an argument. -/

open Sys2Proof Sys2Proof.Machine

/-! ### Encoding -/

/-- 30_encoding.md sections 2 and 5: no bit of an encoding is dropped. -/
def Obligations.EncodedCommandsDecodeBack : Prop :=
  ∀ i : Instr, i.WellFormed = true → decode (encode i) = .command i

/-- 30_encoding.md section 5: a word that decodes to a command is that command's only word, and the command is well formed. -/
def Obligations.DecodedWordsEncodeBack : Prop :=
  ∀ (w : Word) (i : Instr), decode w = .command i → i.WellFormed = true ∧ encode i = w

/-- R90: the six rows, each with its match, its mask and its operand; opcode 0 is not assigned. -/
def Obligations.WordsSpellCommandsByMatchAndMask : Prop :=
  (∀ w : Word,
    (w &&& 0xFFFFFF00#32 = 0x10000000#32 ↔ decode w = .command (.bind (w.extractLsb' 0 8))) ∧
    (w &&& 0xFFFFFFF8#32 = 0x20000000#32 ↔ decode w = .command (.start (Kind.ofCode (w.extractLsb' 0 3)))) ∧
    (w &&& 0xFFFF0000#32 = 0x30000000#32 ↔ decode w = .command (.push (w.extractLsb' 0 16))) ∧
    (w &&& 0xFFFFFFFF#32 = 0x40000000#32 ↔ decode w = .command .final) ∧
    (w &&& 0xFFFFFFFF#32 = 0x50000000#32 ↔ decode w = .command .pop) ∧
    (w &&& 0xFFFFFFFF#32 = 0x60000000#32 ↔ decode w = .command .stat)) ∧
  (∀ i : Instr, decode 0x00000000#32 ≠ .command i)

/-- R92: a reserved opcode, with any setting of bits 27:0, is answered `IllegalCmd` and changes nothing. -/
def Obligations.ReservedOpcodesAreAnsweredIllegal : Prop :=
  ∀ (s : State) (w : Word) (rest : List HostEvent), s.inputs = .command w :: rest →
    (w.extractLsb' 28 4 = 0#4 ∨ 7#4 ≤ w.extractLsb' 28 4) →
    step s = .next { s with inputs := rest, rsp := some (responseWord .illegalCmd 0 s) }

/-- R93: an assigned opcode with a 1 in a reserved bit of its format is answered `IllegalCmd` and changes nothing; and
the counts of legal words. -/
def Obligations.ReservedBitsAreAnsweredIllegal : Prop :=
  (∀ (s : State) (w : Word) (rest : List HostEvent), s.inputs = .command w :: rest →
    (w.extractLsb' 28 4 = 1#4 ∧ w.extractLsb' 8 20 ≠ 0#20 ∨
     w.extractLsb' 28 4 = 2#4 ∧ w.extractLsb' 3 25 ≠ 0#25 ∨
     w.extractLsb' 28 4 = 3#4 ∧ w.extractLsb' 16 12 ≠ 0#12 ∨
     (w.extractLsb' 28 4 = 4#4 ∨ w.extractLsb' 28 4 = 5#4 ∨ w.extractLsb' 28 4 = 6#4) ∧ w.extractLsb' 0 28 ≠ 0#28) →
    step s = .next { s with inputs := rest, rsp := some (responseWord .illegalCmd 0 s) }) ∧
  Nat.card { w : Word // ∃ fid, decode w = .command (.bind fid) } = 256 ∧
  Nat.card { w : Word // ∃ kind, decode w = .command (.start kind) } = 8 ∧
  Nat.card { w : Word // ∃ sym, decode w = .command (.push sym) } = 65536 ∧
  Nat.card { w : Word // decode w = .command .final } = 1 ∧
  Nat.card { w : Word // decode w = .command .pop } = 1 ∧
  Nat.card { w : Word // decode w = .command .stat } = 1 ∧
  Nat.card { w : Word // ∃ i, decode w = .command i } = 65803

/-- 95_test_vectors.md table 2.2: words written out from the encodings. A sanity statement. -/
def Obligations.SampleWordsDecode : Prop :=
  decode 0x100000FF#32 = .command (.bind 255) ∧
  decode 0x10000100#32 = .illegal .reservedBits ∧
  decode 0x20000000#32 = .command (.start .string) ∧
  decode 0x20000007#32 = .command (.start (.reserved 7)) ∧
  decode 0x30000061#32 = .command (.push 0x61) ∧
  decode 0x30010061#32 = .illegal .reservedBits ∧
  decode 0x40000000#32 = .command .final ∧
  decode 0x50000000#32 = .command .pop ∧
  decode 0x60000000#32 = .command .stat ∧
  decode 0x70000000#32 = .illegal .reservedOpcode

/-! ### Steps and events -/

/-- 30_encoding.md section 1: the engine takes the command word presented, decodes it and executes it. The queue of
words is the model's (log 6). -/
def Obligations.StepRunsThePresentedCommand : Prop :=
  ∀ (s : State) (w : Word) (i : Instr) (rest : List HostEvent), s.inputs = .command w :: rest →
    decode w = .command i → step s = exec i { s with inputs := rest }

/-- R206: `IllegalCmd` for any word that decodes to `Illegal`, in any phase; no state change, nothing recorded. -/
def Obligations.IllegalWordsChangeNothing : Prop :=
  ∀ (s : State) (w : Word) (why : IllegalReason) (rest : List HostEvent), s.inputs = .command w :: rest →
    decode w = .illegal why →
    step s = .next { s with inputs := rest, rsp := some (responseWord .illegalCmd 0 s) }

/-- 70_reset_and_hazards.md section 1: what the reset event defines. The other registers are unspecified, so nothing
is said of them. -/
def Obligations.ResetEventUndoesConstruction : Prop :=
  ∀ (s : State) (rest : List HostEvent), s.inputs = .reset :: rest →
    ∃ t, step s = .next t ∧ t.ph = .unbound ∧ t.fn = none ∧ t.lerr = .ok ∧ t.rsp = none ∧ t.inputs = rest

/-- 10_state.md section 6 and 70_reset_and_hazards.md section 1: the specified reset values, and the first response
after reset to a `STAT`. -/
def Obligations.FirstStatAfterResetReadsZero : Prop :=
  State.reset.ph = .unbound ∧ State.reset.fn = none ∧ State.reset.lerr = .ok ∧
  ∃ t, step (present 0x60000000#32 State.reset) = .next t ∧ t.rsp = some 0x00000000#32

/-- The model's choice (log 8), after 30_encoding.md section 1: with nothing presented the engine initiates nothing. -/
def Obligations.NothingPresentedNothingDone : Prop :=
  ∀ s : State, s.inputs = [] → step s = .next { s with rsp := none }

/-- The engine of `exec` is the parametric engine at the platform's parameters (00_scope.md section 3). -/
def Obligations.ExecIsTheEngineAtThePlatform : Prop :=
  ∀ (i : Instr) (s : State), exec i s = execUnder Config.platform i s

/-! ### Invariants -/

/-- 10_state.md section 6: the invariant holds after reset. -/
def Obligations.ResetStateMeetsTheInvariant : Prop := Inv Config.platform State.reset

/-- 10_state.md section 6, the invariants (b) to (f): every step keeps them. -/
def Obligations.EveryStepKeepsTheInvariant : Prop :=
  ∀ s t : State, Inv Config.platform s → step s = .next t → Inv Config.platform t

/-- 30_encoding.md section 1 and 70_reset_and_hazards.md section 4: from a state that meets the invariant every event is
answered, a command by exactly one response word, and no step stops. -/
def Obligations.EveryCommandIsAnswered : Prop :=
  ∀ s : State, Inv Config.platform s →
    (∃ t, step s = .next t) ∧
    (∀ w rest, s.inputs = .command w :: rest → ∃ t r, step s = .next t ∧ t.rsp = some r ∧ t.inputs = rest)

/-- 10_state.md section 6 (d): outside reset, `oi` never exceeds 19 once it does not. -/
def Obligations.OutputIndexStaysInRange : Prop :=
  ∀ s t : State, (∀ rest, s.inputs ≠ .reset :: rest) → s.oi.toNat ≤ 19 → step s = .next t → t.oi.toNat ≤ 19

/-- 10_state.md section 6 (a): an accepted `START` begins with the empty message, for whatever function is bound. -/
def Obligations.StartBeginsTheEmptyMessage : Prop :=
  ∀ (c : Config) (F : CompressionFn) (s : State), operating s.ph → boundFn c s = some F →
    ∃ t, execUnder c (.start .string) s = .next t ∧ Absorbed F c.iv [] t ∧ boundFn c t = some F

/-- 10_state.md section 6 (a): an accepted `PUSH` appends its byte to the message absorbed. -/
def Obligations.PushAppendsToTheMessage : Prop :=
  ∀ (c : Config) (F : CompressionFn) (m : List Byte) (b : Byte) (s : State), boundFn c s = some F →
    Absorbed F c.iv m s → m.length < 2 ^ 61 - 1 →
    ∃ t, execUnder c (.push (symOfByte b)) s = .next t ∧ Absorbed F c.iv (m ++ [b]) t ∧ boundFn c t = some F

/-! ### `BIND` -/

/-- R120: the whole of `BIND`. Where it constructs, only `fn`, `ph` and the response change; `fid = 0` succeeds on every
platform, with the response of the rule's example. -/
def Obligations.BindCapturesTheFunction : Prop :=
  ∀ (fid : BitVec 8) (s : State),
    (s.ph = .dead → exec (.bind fid) s = .next { s with rsp := some (responseWord .capabilityNotBound 0 s) }) ∧
    (operating s.ph → exec (.bind fid) s = .next { s with rsp := some (responseWord .seqError 0 s) }) ∧
    (s.ph = .unbound → exec (.bind fid) s =
      match fnTable Config.platform fid with
      | some _ => .next { s with fn := some fid, ph := .idle,
                                 rsp := some (responseWord .ok 0 { s with fn := some fid, ph := .idle }) }
      | none => .next { s with ph := .dead, lerr := .capabilityNotBound,
                               rsp := some (responseWord .capabilityNotBound 0
                                 { s with ph := .dead, lerr := .capabilityNotBound }) }) ∧
    fnTable Config.platform 0 ≠ none ∧
    (s.ph = .unbound → s.lerr = .ok → ∃ t, exec (.bind 0) s = .next t ∧ t.rsp = some 0x01800000#32)

/-- R121: a `BIND` of no function leaves the engine in `DEAD`; there every command but `STAT` is answered
`CapabilityNotBound` with no state change, `STAT` is answered OK, and only the reset event leaves. -/
def Obligations.FailedConstructionIsFinal : Prop :=
  (∀ (c : Config) (fid : BitVec 8) (s : State), s.ph = .unbound → fnTable c fid = none →
    ∃ t, execUnder c (.bind fid) s = .next t ∧ t.ph = .dead) ∧
  (∀ (c : Config) (i : Instr) (s : State), s.ph = .dead →
    (i ≠ .stat → refusedWith c i s .capabilityNotBound) ∧ (i = .stat → refusedWith c i s .ok)) ∧
  (∀ s t : State, s.ph = .dead → step s = .next t →
    t.ph = .dead ∨ (t.ph = .unbound ∧ ∃ rest, s.inputs = .reset :: rest))

/-- R122: after construction a `BIND`, with any `fid`, changes no register and is answered `SeqError`; a sequence of
commands in which it stands runs as if it had not been issued. -/
def Obligations.LateBindHasNoEffect : Prop :=
  ∀ (c : Config) (fid : BitVec 8) (s : State), operating s.ph →
    refusedWith c (.bind fid) s .seqError ∧
    ∀ (i : Instr) (is : List Instr),
      trace c (.bind fid :: i :: is) s = (trace c (i :: is) s).map fun (rs, u) => (responseWord .seqError 0 s :: rs, u)

/-! ### `START` -/

/-- R124: the whole of `START`, with the response of the rule's example. Only `fn` survives an accepted `START`. -/
def Obligations.StartInitialisesTheCall : Prop :=
  ∀ (kind : Kind) (s : State),
    (s.ph = .unbound ∨ s.ph = .dead →
      exec (.start kind) s = .next { s with rsp := some (responseWord .capabilityNotBound 0 s) }) ∧
    (operating s.ph → kind ≠ .string →
      exec (.start kind) s = .next { s with
        ph := .idle, lerr := .typeMismatch, rsp := some (responseWord .typeMismatch 0 { s with ph := .idle, lerr := .typeMismatch }) }) ∧
    (operating s.ph → kind = .string →
      exec (.start kind) s = .next { s with
        H := Config.platform.iv, W := Vector.replicate 16 0, acc := 0, len := 0, pos := 0, oi := 0, lerr := .ok,
        ph := .absorb, rsp := some (responseWord .ok 0 { s with lerr := .ok, ph := .absorb }) }) ∧
    (operating s.ph → s.fn ≠ none → ∃ t, exec (.start .string) s = .next t ∧ t.rsp = some 0x02800000#32)

/-- R89: of the eight values of the `kind` field only 0 is accepted; every other ends in `TypeMismatch`. -/
def Obligations.OnlyKindZeroIsAccepted : Prop :=
  ∀ (k : BitVec 3) (s : State) (rest : List HostEvent), operating s.ph →
    s.inputs = .command (0x2#4 ++ 0#25 ++ k) :: rest →
    ∃ t r, step s = .next t ∧ t.rsp = some r ∧
      (k = 0#3 → t.ph = .absorb ∧ t.lerr = .ok ∧ rspCode r = Code.ok.bits) ∧
      (k ≠ 0#3 → t.ph = .idle ∧ t.lerr = .typeMismatch ∧ rspCode r = Code.typeMismatch.bits)

/-- 41_call_control.md section 2: nothing of an abandoned, aborted or finished call reaches the next one. -/
def Obligations.StartErasesEarlierCalls : Prop :=
  ∀ s t : State, operating s.ph → operating t.ph → s.fn = t.fn → s.inputs = t.inputs → s.resets = t.resets →
    exec (.start .string) s = exec (.start .string) t

/-! ### `PUSH` and `Feed` -/

/-- R153: `Feed(b)` on a bound engine. All three tests use `pos` on entry; `W[15]` is written before `Compress` reads the
schedule. -/
def Obligations.FeedPacksAndCompresses : Prop :=
  ∀ (c : Config) (F : CompressionFn) (b : Byte) (s : State), boundFn c s = some F →
    let acc : Word := (s.acc <<< 8) ||| b.setWidth 32
    let W : Schedule := if s.pos.toNat % 4 = 3 then s.W.setIfInBounds (s.pos.toNat / 4) acc else s.W
    feed c b s = .ok { s with acc := acc, W := W, H := if s.pos = 63#6 then F s.H W else s.H,
                              pos := BitVec.ofNat 6 ((s.pos.toNat + 1) % 64) }

/-- R158: what `Feed` leaves alone, bound or not: the call's counters and control registers, and every slot but the one of the
current word, before and after `Compress`. -/
def Obligations.FeedLeavesTheRestAlone : Prop :=
  ∀ (c : Config) (b : Byte) (s t : State), feed c b s = .ok t →
    t.len = s.len ∧ t.oi = s.oi ∧ t.ph = s.ph ∧ t.fn = s.fn ∧ t.lerr = s.lerr ∧
    (∀ (k : Nat) (_ : k < 16), k ≠ s.pos.toNat / 4 → t.W[k] = s.W[k]) ∧ t.acc = (s.acc <<< 8) ||| b.setWidth 32

/-- R155: four bytes at the offsets of slot `k` give its big-endian word, whatever `acc` held before; no other slot is
written. -/
def Obligations.FourBytesMakeABigEndianWord : Prop :=
  ∀ (c : Config) (F : CompressionFn) (b0 b1 b2 b3 : Byte) (k : Nat) (_ : k < 16) (s : State),
    boundFn c s = some F → s.pos.toNat = 4 * k →
    ∃ t, feedAll c [b0, b1, b2, b3] s = .ok t ∧
      t.W[k].toNat = b0.toNat * 2 ^ 24 + b1.toNat * 2 ^ 16 + b2.toNat * 2 ^ 8 + b3.toNat ∧
      (∀ (j : Nat) (_ : j < 16), j ≠ k → t.W[j] = s.W[j])

/-- 43_block_loop.md section 2 (the block boundary, and "Exactly 16 slots populated before the compression step runs"): a whole block is
compressed once, with its own schedule, whatever `W` and `acc` held before. -/
def Obligations.ABlockIsCompressedOnceWithItsOwnSchedule : Prop :=
  ∀ (c : Config) (F : CompressionFn) (q : List Byte) (s : State), boundFn c s = some F → s.pos = 0 → q.length = 64 →
    ∃ t, feedAll c q s = .ok t ∧ t.H = F s.H (sched q) ∧ t.W = sched q ∧ t.pos = 0

/-- R150: the whole of `PUSH`. Where the byte is accepted, `acc`, `pos`, `len`, the slot of a completed word and the
State of a completed block change, and nothing else but the response. -/
def Obligations.PushAbsorbsAByte : Prop :=
  ∀ (sym : Sym) (s : State),
    (s.ph = .unbound ∨ s.ph = .dead →
      exec (.push sym) s = .next { s with rsp := some (responseWord .capabilityNotBound 0 s) }) ∧
    (s.ph = .idle ∨ s.ph = .done → exec (.push sym) s = .next { s with rsp := some (responseWord .seqError 0 s) }) ∧
    (s.ph = .absorb → 255 < sym.toNat →
      exec (.push sym) s = .next { s with
        ph := .idle, lerr := .rangeError, rsp := some (responseWord .rangeError 0 { s with ph := .idle, lerr := .rangeError }) }) ∧
    (s.ph = .absorb → sym.toNat ≤ 255 → s.len.toNat = 2 ^ 61 - 1 →
      exec (.push sym) s = .next { s with
        ph := .idle, lerr := .lenOverflow, rsp := some (responseWord .lenOverflow 0 { s with ph := .idle, lerr := .lenOverflow }) }) ∧
    (s.ph = .absorb → sym.toNat ≤ 255 → s.len.toNat < 2 ^ 61 - 1 → ∀ F, boundFn Config.platform s = some F →
      let acc : Word := (s.acc <<< 8) ||| (sym.extractLsb' 0 8).setWidth 32
      let W : Schedule := if s.pos.toNat % 4 = 3 then s.W.setIfInBounds (s.pos.toNat / 4) acc else s.W
      exec (.push sym) s = .next { s with
        acc := acc, W := W, H := if s.pos = 63#6 then F s.H W else s.H, pos := s.pos + 1, len := s.len + 1,
        rsp := some (responseWord .ok 0 s) }) ∧
    (s.ph = .absorb → s.fn ≠ none → s.lerr = .ok → responseWord .ok 0 s = 0x02800000#32)

/-! ### `FINAL` and the padding -/

/-- R142: the whole of `FINAL`: the sentinel, the zero bytes that bring `pos` to 56, the eight bytes of `8 * len`, most
significant first, fed in this order; then `oi = 0` and `DONE`. `len` is not changed. -/
def Obligations.FinalPadsAndFrames : Prop :=
  ∀ s : State,
    (s.ph = .unbound ∨ s.ph = .dead →
      exec .final s = .next { s with rsp := some (responseWord .capabilityNotBound 0 s) }) ∧
    (s.ph = .idle ∨ s.ph = .done → exec .final s = .next { s with rsp := some (responseWord .seqError 0 s) }) ∧
    (s.ph = .absorb → ∀ F, boundFn Config.platform s = some F →
      ∃ (z : Nat) (t : State), (s.pos.toNat + 1 + z) % 64 = 56 ∧ z ≤ 63 ∧
        feedAll Config.platform
          (0x80#8 :: List.replicate z 0x00#8 ++
            [7, 6, 5, 4, 3, 2, 1, 0].map fun k => BitVec.ofNat 8 (((8 * s.len.toNat) >>> (8 * k)) &&& 255)) s = .ok t ∧
        exec .final s = .next { t with oi := 0, ph := .done, rsp := some (responseWord .ok 0 { t with ph := .done }) } ∧
        t.pos = 0 ∧ t.len = s.len ∧ t.fn = s.fn ∧ t.lerr = s.lerr ∧ t.inputs = s.inputs ∧ t.resets = s.resets ∧
        (s.len.toNat = 3 → s.pos = 3 → z = 52 ∧ t.H = F s.H t.W) ∧
        (s.lerr = .ok → responseWord .ok 0 { t with ph := .done } = 0x03800000#32))

/-- R145: the work of `FINAL` by `r = len mod 64`: `55 - r` or `119 - r` zero bytes, `64 - r` or `128 - r` `Feed`s in all,
one `Compress` or two, the last `Feed` at `pos = 63`, so that the last `Compress` is the last effect on State, and
`pos = 0` afterwards. -/
def Obligations.FinalWorkByPosition : Prop :=
  ∀ (F : CompressionFn) (s : State), s.ph = .absorb → boundFn Config.platform s = some F →
    s.pos.toNat = s.len.toNat % 64 →
    ∃ t u v, exec .final s = .next t ∧ t.pos = 0 ∧
      feedAll Config.platform (finalStream s.pos s.len) s = .ok u ∧ t.H = u.H ∧ t.W = u.W ∧
      feedAll Config.platform (finalStream s.pos s.len).dropLast s = .ok v ∧ v.pos = 63 ∧ u.H = F v.H u.W ∧
      (s.len.toNat % 64 ≤ 55 → padZeros s.pos.toNat = 55 - s.len.toNat % 64 ∧
        (finalStream s.pos s.len).length = 64 - s.len.toNat % 64 ∧ v.H = s.H) ∧
      (56 ≤ s.len.toNat % 64 → padZeros s.pos.toNat = 119 - s.len.toNat % 64 ∧
        (finalStream s.pos s.len).length = 128 - s.len.toNat % 64 ∧
        ∃ x, feedAll Config.platform (0x80#8 :: List.replicate (63 - s.len.toNat % 64) 0x00#8) s = .ok x ∧
          x.pos = 0 ∧ x.H = F s.H x.W ∧ v.H = x.H ∧
          feedAll Config.platform (List.replicate 56 0x00#8 ++ be64 (8 * s.len.toNat)) x = .ok u)

/-- 20_memory.md section 2 (b): the bit length of the message stands in the last two slots of the last block. -/
def Obligations.LengthFieldEndsTheLastBlock : Prop :=
  ∀ (F : CompressionFn) (s : State), s.ph = .absorb → boundFn Config.platform s = some F →
    ∃ t, exec .final s = .next t ∧ t.W[14].toNat = 8 * s.len.toNat / 2 ^ 32 ∧ t.W[15].toNat = 8 * s.len.toNat % 2 ^ 32

/-- R141: the length of the padded buffer, the least multiple of 64 that is at least `L + 9`; its blocks; and what stands
where. -/
def Obligations.PaddedBufferShape : Prop :=
  ∀ m : List Byte, m.length ≤ 2 ^ 61 - 1 →
    (pad m).length = m.length + 1 + padZeros m.length + 8 ∧
    (pad m).length = 64 * ((m.length + 8) / 64 + 1) ∧
    (∀ n, 64 ∣ n → m.length + 9 ≤ n → (pad m).length ≤ n) ∧
    (pad m).take m.length = m ∧
    (pad m)[m.length]? = some 0x80#8 ∧
    (∀ j, m.length + 1 ≤ j → j + 9 ≤ (pad m).length → (pad m)[j]? = some 0x00#8) ∧
    (pad m).drop ((pad m).length - 8) = be64 (8 * m.length) ∧
    (blocks (pad m)).length = (m.length + 8) / 64 + 1 ∧ (blocks (pad m)).flatten = pad m

/-- R147: the corner cases around the 56 and 64 marks: `L`, `L mod 64`, zero bytes, padded length, blocks, length bytes. -/
def Obligations.PaddingCornerCases : Prop :=
  ∀ row ∈ ([(0, 0, 55, 64, 1, [0, 0, 0, 0, 0, 0, 0, 0]), (1, 1, 54, 64, 1, [0, 0, 0, 0, 0, 0, 0, 0x08]),
      (3, 3, 52, 64, 1, [0, 0, 0, 0, 0, 0, 0, 0x18]), (54, 54, 1, 64, 1, [0, 0, 0, 0, 0, 0, 0x01, 0xB0]),
      (55, 55, 0, 64, 1, [0, 0, 0, 0, 0, 0, 0x01, 0xB8]), (56, 56, 63, 128, 2, [0, 0, 0, 0, 0, 0, 0x01, 0xC0]),
      (63, 63, 56, 128, 2, [0, 0, 0, 0, 0, 0, 0x01, 0xF8]), (64, 0, 55, 128, 2, [0, 0, 0, 0, 0, 0, 0x02, 0x00]),
      (119, 55, 0, 128, 2, [0, 0, 0, 0, 0, 0, 0x03, 0xB8]), (120, 56, 63, 192, 3, [0, 0, 0, 0, 0, 0, 0x03, 0xC0]),
      (2 ^ 61 - 1, 63, 56, 2 ^ 61 + 64, 2 ^ 55 + 1, [0xFF, 0xFF, 0xFF, 0xFF, 0xFF, 0xFF, 0xFF, 0xF8])] :
      List (Nat × Nat × Nat × Nat × Nat × List Byte)),
    ∀ m : List Byte, m.length = row.1 →
      m.length % 64 = row.2.1 ∧ padZeros m.length = row.2.2.1 ∧ (pad m).length = row.2.2.2.1 ∧
      (blocks (pad m)).length = row.2.2.2.2.1 ∧ (pad m)[m.length]? = some 0x80#8 ∧
      (pad m).drop ((pad m).length - 8) = row.2.2.2.2.2

/-! ### `POP` and the serializer -/

/-- R170: the whole of `POP`. `H` is read and not written; the twentieth byte ends the call. -/
def Obligations.PopReturnsTheNextByte : Prop :=
  ∀ s : State,
    (s.ph = .unbound ∨ s.ph = .dead →
      exec .pop s = .next { s with rsp := some (responseWord .capabilityNotBound 0 s) }) ∧
    (s.ph = .idle ∨ s.ph = .absorb → exec .pop s = .next { s with rsp := some (responseWord .seqError 0 s) }) ∧
    (s.ph = .done → ∀ (v : Word), s.oi.toNat ≤ 19 → s.H[s.oi.toNat / 4]? = some v →
      let d : Sym := BitVec.ofNat 16 (v.toNat / 2 ^ (8 * (3 - s.oi.toNat % 4)) % 256)
      exec .pop s = .next
        (if s.oi.toNat = 19 then { s with oi := 0, ph := .idle, rsp := some (responseWord .ok d { s with ph := .idle }) }
         else { s with oi := s.oi + 1, rsp := some (responseWord .ok d s) })) ∧
    (s.ph = .done → s.oi = 0 → s.H[0] = 0x67452301#32 → s.fn ≠ none → s.lerr = .ok →
      ∃ t, exec .pop s = .next t ∧ t.rsp = some 0x03800067#32)

/-- R171: the twenty `POP`s after a `FINAL` return the bytes of `Ser(H)` in order and leave the engine in `IDLE`; the digest read
as one number, byte 0 most significant, is `Digest160(H)`. -/
def Obligations.TwentyPopsReturnTheDigest : Prop :=
  ∀ (c : Config) (s : State), s.ph = .done → s.oi = 0 →
    (∃ rs t, trace c (List.replicate 20 .pop) s = some (rs, t) ∧ rs.map rspData = (ser s.H).map symOfByte ∧
      (∀ r ∈ rs, rspCode r = 0) ∧ t = { s with ph := .idle, rsp := t.rsp }) ∧
    (∀ (n : Nat) (_ : n < 20) (v : Word), s.H[n / 4]? = some v →
      (ser s.H)[n]? = some (BitVec.ofNat 8 (v.toNat / 2 ^ (8 * (3 - n % 4)) % 256))) ∧
    (ser s.H).length = 20 ∧ bigEndian (ser s.H) = (digest160 s.H).toNat

/-! ### `STAT` and the response -/

/-- R128: `STAT` is answered OK in every phase and writes no state, and is the only command that is; after reset the
response is `0x00000000`, in `DEAD` it is `0x04030000`. -/
def Obligations.StatReadsTheStatus : Prop :=
  (∀ s : State, exec .stat s = .next { s with rsp := some (responseWord .ok 0 s) }) ∧
  (∀ (i : Instr) (s : State), i ≠ .stat → s.ph = .dead →
    ∃ t r, exec i s = .next t ∧ t.rsp = some r ∧ rspCode r ≠ Code.ok.bits) ∧
  responseWord .ok 0 State.reset = 0x00000000#32 ∧
  (∀ s : State, s.ph = .dead → s.fn = none → s.lerr = .capabilityNotBound → responseWord .ok 0 s = 0x04030000#32)

/-- R86 and R87: the fields of every response, legal command or not: a code of the table, the phase, `bound` and the
latched error after the command, three zero bits, and `data`, which is the digest byte in the success response of `POP`
and 0 in every other. -/
def Obligations.ResponsesCarryTheStatus : Prop :=
  ∀ (s t : State) (w : Word) (rest : List HostEvent), s.inputs = .command w :: rest → step s = .next t →
    ∃ (r : Word) (e : Code), t.rsp = some r ∧ rspCode r = e.bits ∧
      rspPhase r = t.ph.bits ∧ rspBound r = BitVec.ofBool t.fn.isSome ∧ rspZero r = 0 ∧ rspLerr r = t.lerr.bits ∧
      (¬ (decode w = .command .pop ∧ s.ph = .done) → rspData r = 0) ∧
      (decode w = .command .pop → s.ph = .done → rspCode r = 0 ∧
        ∃ b, digestByteAt s.H s.oi = some b ∧ rspData r = BitVec.ofNat 16 b ∧ b ≤ 255)

/-! ### Errors -/

/-- R209: the order of the checks, first match wins. -/
def Obligations.ErrorPriority : Prop :=
  ∀ (s : State) (w : Word) (rest : List HostEvent), Inv Config.platform s → s.inputs = .command w :: rest →
    ∃ t r, step s = .next t ∧ t.rsp = some r ∧ rspCode r =
      match decode w with
      | .illegal _ => Code.illegalCmd.bits
      | .command i =>
        if i = .stat then Code.ok.bits
        else if s.ph = .dead then Code.capabilityNotBound.bits
        else if s.ph = .unbound then
          match i with
          | .bind fid => if (fnTable Config.platform fid).isSome then Code.ok.bits else Code.capabilityNotBound.bits
          | _ => Code.capabilityNotBound.bits
        else
          match i with
          | .bind _ => Code.seqError.bits
          | .start kind => if kind = .string then Code.ok.bits else Code.typeMismatch.bits
          | .push sym =>
            if s.ph ≠ .absorb then Code.seqError.bits
            else if 255 < sym.toNat then Code.rangeError.bits
            else if s.len.toNat = 2 ^ 61 - 1 then Code.lenOverflow.bits
            else Code.ok.bits
          | .final => if s.ph = .absorb then Code.ok.bits else Code.seqError.bits
          | .pop => if s.ph = .done then Code.ok.bits else Code.seqError.bits
          | .stat => Code.ok.bits

/-- R211 and R213, and the effects of the refusal class: an error has the effects of its class and no others. -/
def Obligations.ErrorsHaveOnlyTheirClassEffects : Prop :=
  ∀ (c : Config) (i : Instr) (s t : State) (r : Word), execUnder c i s = .next t → t.rsp = some r →
    (∀ e : Code, e = .typeMismatch ∨ e = .rangeError ∨ e = .lenOverflow → rspCode r = e.bits →
      t = { s with ph := .idle, lerr := e, rsp := some r } ∧ rspData r = 0) ∧
    (rspCode r = Code.seqError.bits ∨ rspCode r = Code.illegalCmd.bits ∨
      (rspCode r = Code.capabilityNotBound.bits ∧ (s.ph = .dead ∨ ∀ fid, i ≠ .bind fid)) →
      t = { s with rsp := some r } ∧ rspData r = 0) ∧
    (rspCode r = Code.capabilityNotBound.bits → s.ph = .unbound → (∃ fid, i = .bind fid) →
      t = { s with ph := .dead, lerr := .capabilityNotBound, rsp := some r } ∧ (s.fn = none → r = 0x34030000#32))

/-- 60_exceptions.md section 4: a refused command can be inserted into any command sequence without changing any other
response or the state reached. -/
def Obligations.RefusedCommandsAreTransparent : Prop :=
  ∀ (c : Config) (before after : List Instr) (i j : Instr) (s u : State) (rs : List Word) (r : Word),
    trace c before s = some (rs, u) → execUnder c i u = .next { u with rsp := some r } →
    trace c (before ++ i :: j :: after) s =
      (trace c (before ++ j :: after) s).map fun (qs, v) => (qs.take rs.length ++ r :: qs.drop rs.length, v)

/-- R129: the phase transition table, from every state that meets the invariant. -/
def Obligations.PhaseTransitionTable : Prop :=
  ∀ (c : Config) (s : State), Inv c s →
    (s.ph = .unbound →
      (∀ fid, fnTable c fid ≠ none → acceptedInto c (.bind fid) s .idle) ∧
      (∀ fid, fnTable c fid = none → ∃ t r, execUnder c (.bind fid) s = .next t ∧ t.ph = .dead ∧ t.rsp = some r ∧ rspCode r = 3) ∧
      (∀ i, i ≠ .stat → (∀ fid, i ≠ .bind fid) → refusedWith c i s .capabilityNotBound)) ∧
    (s.ph = .idle →
      (∀ fid, refusedWith c (.bind fid) s .seqError) ∧ acceptedInto c (.start .string) s .absorb ∧
      (∀ kind, kind ≠ .string → abortedWith c (.start kind) s .typeMismatch) ∧
      (∀ sym, refusedWith c (.push sym) s .seqError) ∧ refusedWith c .final s .seqError ∧ refusedWith c .pop s .seqError) ∧
    (s.ph = .absorb →
      (∀ fid, refusedWith c (.bind fid) s .seqError) ∧ acceptedInto c (.start .string) s .absorb ∧
      (∀ kind, kind ≠ .string → abortedWith c (.start kind) s .typeMismatch) ∧
      (∀ sym, sym.toNat ≤ 255 → s.len.toNat ≠ 2 ^ 61 - 1 → acceptedInto c (.push sym) s .absorb) ∧
      (∀ sym, sym.toNat ≤ 255 → s.len.toNat = 2 ^ 61 - 1 → abortedWith c (.push sym) s .lenOverflow) ∧
      (∀ sym, 255 < sym.toNat → abortedWith c (.push sym) s .rangeError) ∧
      acceptedInto c .final s .done ∧ refusedWith c .pop s .seqError) ∧
    (s.ph = .done →
      (∀ fid, refusedWith c (.bind fid) s .seqError) ∧ acceptedInto c (.start .string) s .absorb ∧
      (∀ kind, kind ≠ .string → abortedWith c (.start kind) s .typeMismatch) ∧
      (∀ sym, refusedWith c (.push sym) s .seqError) ∧ refusedWith c .final s .seqError ∧
      (s.oi ≠ 19 → acceptedInto c .pop s .done) ∧ (s.oi = 19 → acceptedInto c .pop s .idle)) ∧
    (s.ph = .dead → ∀ i, i ≠ .stat → refusedWith c i s .capabilityNotBound) ∧
    refusedWith c .stat s .ok ∧
    (∀ w why rest, s.inputs = .command w :: rest → decode w = .illegal why →
      step s = .next { s with inputs := rest, rsp := some (responseWord .illegalCmd 0 s) }) ∧
    (∀ rest, s.inputs = .reset :: rest → ∃ t, step s = .next t ∧ t.ph = .unbound)

/-- The two stops of the model (log 9, log 10), which 45_compression.md and 10_state.md say cannot occur: a block completed
with no function bound, and an output index above 19. -/
def Obligations.ExcludedStatesStop : Prop :=
  (∀ (sym : Sym) (s : State), s.ph = .absorb → sym.toNat ≤ 255 → s.len.toNat < 2 ^ 61 - 1 →
    boundFn Config.platform s = none → s.pos = 63#6 → exec (.push sym) s = .fault .compressUnbound) ∧
  (∀ s : State, s.ph = .absorb → boundFn Config.platform s = none → exec .final s = .fault .compressUnbound) ∧
  (∀ s : State, s.ph = .done → 19 < s.oi.toNat → exec .pop s = .fault .digestIndexOutOfRange)

/-! ### Rules of the whole machine -/

/-- 20_memory.md section 5 and 10_state.md section 5: `fn` changes at the reset event and at the one successful `BIND` of an
engine not yet constructed, and never else. -/
def Obligations.OnlyConstructionWritesTheCapability : Prop :=
  ∀ s t : State, step s = .next t → t.fn ≠ s.fn →
    (∃ rest, s.inputs = .reset :: rest ∧ t.fn = none) ∨
    (s.ph = .unbound ∧ ∃ fid rest, s.inputs = .command (encode (.bind fid)) :: rest ∧ t.fn = some fid ∧
      fnTable Config.platform fid ≠ none)

/-- 60_exceptions.md section 6: operation mode is left by reset only, and construction mode by reset or the first `BIND`. -/
def Obligations.ModesAreLeftOnlyAsSaid : Prop :=
  ∀ s t : State, step s = .next t → (∀ rest, s.inputs ≠ .reset :: rest) →
    (operating s.ph → operating t.ph) ∧ (s.ph = .dead → t.ph = .dead) ∧
    (s.ph = .unbound → t.ph ≠ .unbound → ∃ fid rest, s.inputs = .command (encode (.bind fid)) :: rest)

/-- R215: `lerr` is cleared only by an accepted `START` and by reset; an error of the abort class overwrites it with its own
code, the failed construction with 3, and a refusal leaves it. -/
def Obligations.LatchedErrorChangesOnlyAsSaid : Prop :=
  (∀ s t : State, step s = .next t → t.lerr ≠ s.lerr →
    (∃ rest, s.inputs = .reset :: rest ∧ t.lerr = .ok) ∨
    (∃ w rest r, s.inputs = .command w :: rest ∧ t.rsp = some r ∧
      (decode w = .command (.start .string) ∧ operating s.ph ∧ t.lerr = .ok ∧ rspCode r = 0 ∨
       rspCode r = t.lerr.bits ∧ (t.lerr = .typeMismatch ∨ t.lerr = .rangeError ∨ t.lerr = .lenOverflow) ∨
       (∃ fid, decode w = .command (.bind fid)) ∧ s.ph = .unbound ∧ t.lerr = .capabilityNotBound ∧ rspCode r = 3))) ∧
  (∀ (s t : State) (w r : Word) (rest : List HostEvent), s.inputs = .command w :: rest → step s = .next t →
    t.rsp = some r →
    (∀ e : Code, e = .typeMismatch ∨ e = .rangeError ∨ e = .lenOverflow → rspCode r = e.bits → t.lerr = e) ∧
    (rspCode r = Code.seqError.bits ∨ rspCode r = Code.illegalCmd.bits → t.lerr = s.lerr) ∧
    (decode w = .command (.start .string) → rspCode r = Code.ok.bits → t.lerr = .ok) ∧
    (∀ fid, decode w = .command (.bind fid) → rspCode r = Code.ok.bits → t.lerr = s.lerr))

/-- 10_state.md section 1, the access matrix: what each command may write. Every command leaves the host's queue and the
reset counter alone. -/
def Obligations.CommandsWriteOnlyTheirRegisters : Prop :=
  ∀ (i : Instr) (s t : State), exec i s = .next t →
    t.inputs = s.inputs ∧ t.resets = s.resets ∧
    ((∀ fid, i ≠ .bind fid) → t.fn = s.fn) ∧
    ((∃ fid, i = .bind fid) ∨ i = .pop ∨ i = .stat →
      t.H = s.H ∧ t.W = s.W ∧ t.acc = s.acc ∧ t.len = s.len ∧ t.pos = s.pos) ∧
    (i = .final → t.len = s.len) ∧
    ((∃ fid, i = .bind fid) ∨ (∃ sym, i = .push sym) ∨ i = .stat → t.oi = s.oi) ∧
    (i = .final ∨ i = .pop ∨ i = .stat → t.lerr = s.lerr) ∧
    (i = .stat → t.ph = s.ph)

/-- 10_state.md sections 5 and 6: no command sequence can tell apart two engines that differ only in registers of no call in
progress. This is what makes the unspecified values after reset harmless. -/
def Obligations.HiddenRegistersCannotBeSeen : Prop :=
  ∀ s t s' : State, Alike s t → step s = .next s' → ∃ t', step t = .next t' ∧ s'.rsp = t'.rsp ∧ Alike s' t'

/-- 44_serializer.md, "never exposed to callers directly": outside `DONE` no response depends on `H`, and in no phase does
one depend on `W` or `acc`. -/
def Obligations.StateIsNeverExposed : Prop :=
  ∀ s : State,
    (s.ph ≠ .done → ∀ h : DigestWords, responseOf (step { s with H := h }) = responseOf (step s)) ∧
    (∀ (w : Schedule) (a : Word), responseOf (step { s with W := w, acc := a }) = responseOf (step s))

/-- R114: the codec's round trip, and the range checks of `charToByte` and `byteToChar`. -/
def Obligations.CodecRoundTrip : Prop :=
  (∀ b : Nat, b ≤ 255 → (byteToChar b).bind charToByte = some (BitVec.ofNat 8 b)) ∧
  (∀ sym : Sym, sym.toNat ≤ 255 → (charToByte sym).bind (fun b => byteToChar b.toNat) = some sym) ∧
  (∀ sym : Sym, 255 < sym.toNat → charToByte sym = none) ∧ (∀ b : Nat, 255 < b → byteToChar b = none)

/-- 20_memory.md section 5 and 60_exceptions.md section 7: a step of one engine leaves every other engine as it was, and does not
depend on the others. The list of engines is the model's (log 16), and so is that all of them have one `IV` and one `Fn`
(log 22). At the reset event the last clause covers the registers R36 leaves unspecified too: that they come out equal in
the two lists is the model's choice (log 5). -/
def Obligations.EnginesShareNothing : Prop :=
  ∀ (k : Nat) (es fs es' : Engines), stepEngine k es = some (.next es') →
    es'.length = es.length ∧ (∀ j, j ≠ k → es'[j]? = es[j]?) ∧
    (es[k]? = fs[k]? → ∃ fs', stepEngine k fs = some (.next fs') ∧ fs'[k]? = es'[k]?)

/-! ### Whole calls -/

/-- R146: the `Feed` stream of a call is `Pad(m)`, and `Feed` number `i` runs with `pos = i mod 64`. -/
def Obligations.TheFeedStreamOfACallIsPad : Prop :=
  ∀ (c : Config) (F : CompressionFn) (m : List Byte) (s : State), operating s.ph → boundFn c s = some F →
    m.length ≤ 2 ^ 61 - 1 →
    ∃ rs t u, trace c ([.start .string] ++ m.map (fun b => .push (symOfByte b)) ++ [.final]) s = some (rs, t) ∧
      feedAll c (pad m) (s.beginCall c.iv) = .ok u ∧
      t = { u with len := BitVec.ofNat 61 m.length, ph := .done, rsp := t.rsp } ∧
      (∀ (i : Nat), i < (pad m).length → ∃ v, feedAll c ((pad m).take i) (s.beginCall c.iv) = .ok v ∧ v.pos.toNat = i % 64)

/-- R195: a call on a bound engine computes `digest(F, IV, m)`, for every function and every `IV`. -/
def Obligations.CallComputesTheDigest : Prop :=
  ∀ (c : Config) (F : CompressionFn) (m : List Byte) (s : State), operating s.ph → boundFn c s = some F →
    m.length ≤ 2 ^ 61 - 1 →
    ∃ rs t, trace c (call m) s = some (rs, t) ∧ rs.length = m.length + 22 ∧ (∀ r ∈ rs, rspCode r = 0) ∧
      (rs.drop (m.length + 2)).map rspData = (digest F c.iv m).map symOfByte ∧
      t.ph = .idle ∧ t.lerr = .ok ∧ t.fn = s.fn

/-- R197: the outcomes of a call that does not complete: no digest byte is returned. -/
def Obligations.IncompleteCallsReturnNoDigest : Prop :=
  (∀ (c : Config) (kind : Kind) (s : State), operating s.ph → kind ≠ .string → abortedWith c (.start kind) s .typeMismatch) ∧
  (∀ (c : Config) (F : CompressionFn) (good : List Byte) (bad : Sym) (rest : List Sym) (s : State), operating s.ph →
    boundFn c s = some F → good.length < 2 ^ 61 - 1 → 255 < bad.toNat →
    ∃ rs t, trace c (callSyms (good.map symOfByte ++ bad :: rest)) s = some (rs, t) ∧
      rs.map rspCode = List.replicate (good.length + 1) Code.ok.bits ++ [Code.rangeError.bits] ++
        List.replicate (rest.length + 21) Code.seqError.bits ∧
      (∀ r ∈ rs, rspData r = 0) ∧ t.ph = .idle ∧ t.lerr = .rangeError) ∧
  (∀ (c : Config) (syms : List Sym) (s : State), s.ph = .unbound ∨ s.ph = .dead →
    ∃ rs t, trace c (callSyms syms) s = some (rs, t) ∧
      rs.map rspCode = List.replicate (syms.length + 22) Code.capabilityNotBound.bits ∧
      (∀ r ∈ rs, rspData r = 0) ∧ t = { s with rsp := t.rsp })

/-- 46_reference.md, isolation and determinism: the responses of a call depend on the message, `IV` and the bound function
only, whatever calls came before. -/
def Obligations.CallsAreIsolated : Prop :=
  ∀ (c : Config) (m : List Byte) (s t : State), operating s.ph → operating t.ph → s.fn = t.fn →
    (trace c (call m) s).map Prod.fst = (trace c (call m) t).map Prod.fst

/-- 45_compression.md, the placeholder: entry 0 leaves State unchanged, and with it bound the digest of every message is
`Ser(IV)`. -/
def Obligations.ThePlaceholderDigestIsSerIV : Prop :=
  (∀ (c : Config) (S : DigestWords) (X : Schedule), ∃ F, fnTable c 0 = some F ∧ F S X = S) ∧
  (∀ (c : Config) (m : List Byte) (s : State), operating s.ph → s.fn = some 0 → m.length ≤ 2 ^ 61 - 1 →
    ∃ rs t, trace c (call m) s = some (rs, t) ∧ (rs.drop (m.length + 2)).map rspData = (ser c.iv).map symOfByte)

/-- 30_encoding.md section 7: the pseudo-command `DIGEST "<text>"` stands for the words of the call of its text. -/
def Obligations.DigestPseudoCommandIsTheCall : Prop :=
  ∀ m : List Byte, (ScriptLine.digestText m).words = (call m).map encode ∧
    (ScriptLine.digestText m).words = [0x20000000#32] ++ (ScriptLine.pushs m).words ++ [0x40000000#32] ++ ScriptLine.popall.words ∧
    ScriptLine.popall.words = List.replicate 20 0x50000000#32
end

