-- ==== Sys2Proof/Laws/State.lean ====
section
/-! SUPPORT. One lemma per field per update of State (Machine/Ops.lean): what each update writes, and that it leaves
every other field alone. -/

namespace Sys2Proof.Machine

/-! ### shiftIn -/
@[simp] theorem State.shiftIn_H (s : State) (b : Byte) : (s.shiftIn b).H = s.H := rfl
@[simp] theorem State.shiftIn_W (s : State) (b : Byte) : (s.shiftIn b).W = s.W := rfl
@[simp] theorem State.shiftIn_acc (s : State) (b : Byte) : (s.shiftIn b).acc = (s.acc <<< 8) ||| b.setWidth 32 := rfl
@[simp] theorem State.shiftIn_len (s : State) (b : Byte) : (s.shiftIn b).len = s.len := rfl
@[simp] theorem State.shiftIn_pos (s : State) (b : Byte) : (s.shiftIn b).pos = s.pos := rfl
@[simp] theorem State.shiftIn_oi (s : State) (b : Byte) : (s.shiftIn b).oi = s.oi := rfl
@[simp] theorem State.shiftIn_ph (s : State) (b : Byte) : (s.shiftIn b).ph = s.ph := rfl
@[simp] theorem State.shiftIn_fn (s : State) (b : Byte) : (s.shiftIn b).fn = s.fn := rfl
@[simp] theorem State.shiftIn_lerr (s : State) (b : Byte) : (s.shiftIn b).lerr = s.lerr := rfl
@[simp] theorem State.shiftIn_rsp (s : State) (b : Byte) : (s.shiftIn b).rsp = s.rsp := rfl
@[simp] theorem State.shiftIn_inputs (s : State) (b : Byte) : (s.shiftIn b).inputs = s.inputs := rfl
@[simp] theorem State.shiftIn_resets (s : State) (b : Byte) : (s.shiftIn b).resets = s.resets := rfl

/-! ### writeSlot -/
@[simp] theorem State.writeSlot_H (s : State) (k : BitVec 4) (v : Word) : (s.writeSlot k v).H = s.H := rfl
@[simp] theorem State.writeSlot_W (s : State) (k : BitVec 4) (v : Word) : (s.writeSlot k v).W = s.W.set k.toNat v k.isLt := rfl
@[simp] theorem State.writeSlot_acc (s : State) (k : BitVec 4) (v : Word) : (s.writeSlot k v).acc = s.acc := rfl
@[simp] theorem State.writeSlot_len (s : State) (k : BitVec 4) (v : Word) : (s.writeSlot k v).len = s.len := rfl
@[simp] theorem State.writeSlot_pos (s : State) (k : BitVec 4) (v : Word) : (s.writeSlot k v).pos = s.pos := rfl
@[simp] theorem State.writeSlot_oi (s : State) (k : BitVec 4) (v : Word) : (s.writeSlot k v).oi = s.oi := rfl
@[simp] theorem State.writeSlot_ph (s : State) (k : BitVec 4) (v : Word) : (s.writeSlot k v).ph = s.ph := rfl
@[simp] theorem State.writeSlot_fn (s : State) (k : BitVec 4) (v : Word) : (s.writeSlot k v).fn = s.fn := rfl
@[simp] theorem State.writeSlot_lerr (s : State) (k : BitVec 4) (v : Word) : (s.writeSlot k v).lerr = s.lerr := rfl
@[simp] theorem State.writeSlot_rsp (s : State) (k : BitVec 4) (v : Word) : (s.writeSlot k v).rsp = s.rsp := rfl
@[simp] theorem State.writeSlot_inputs (s : State) (k : BitVec 4) (v : Word) : (s.writeSlot k v).inputs = s.inputs := rfl
@[simp] theorem State.writeSlot_resets (s : State) (k : BitVec 4) (v : Word) : (s.writeSlot k v).resets = s.resets := rfl

/-! ### setH -/
@[simp] theorem State.setH_H (s : State) (h : DigestWords) : (s.setH h).H = h := rfl
@[simp] theorem State.setH_W (s : State) (h : DigestWords) : (s.setH h).W = s.W := rfl
@[simp] theorem State.setH_acc (s : State) (h : DigestWords) : (s.setH h).acc = s.acc := rfl
@[simp] theorem State.setH_len (s : State) (h : DigestWords) : (s.setH h).len = s.len := rfl
@[simp] theorem State.setH_pos (s : State) (h : DigestWords) : (s.setH h).pos = s.pos := rfl
@[simp] theorem State.setH_oi (s : State) (h : DigestWords) : (s.setH h).oi = s.oi := rfl
@[simp] theorem State.setH_ph (s : State) (h : DigestWords) : (s.setH h).ph = s.ph := rfl
@[simp] theorem State.setH_fn (s : State) (h : DigestWords) : (s.setH h).fn = s.fn := rfl
@[simp] theorem State.setH_lerr (s : State) (h : DigestWords) : (s.setH h).lerr = s.lerr := rfl
@[simp] theorem State.setH_rsp (s : State) (h : DigestWords) : (s.setH h).rsp = s.rsp := rfl
@[simp] theorem State.setH_inputs (s : State) (h : DigestWords) : (s.setH h).inputs = s.inputs := rfl
@[simp] theorem State.setH_resets (s : State) (h : DigestWords) : (s.setH h).resets = s.resets := rfl

/-! ### advancePos -/
@[simp] theorem State.advancePos_H (s : State) : (s.advancePos).H = s.H := rfl
@[simp] theorem State.advancePos_W (s : State) : (s.advancePos).W = s.W := rfl
@[simp] theorem State.advancePos_acc (s : State) : (s.advancePos).acc = s.acc := rfl
@[simp] theorem State.advancePos_len (s : State) : (s.advancePos).len = s.len := rfl
@[simp] theorem State.advancePos_pos (s : State) : (s.advancePos).pos = s.pos + 1 := rfl
@[simp] theorem State.advancePos_oi (s : State) : (s.advancePos).oi = s.oi := rfl
@[simp] theorem State.advancePos_ph (s : State) : (s.advancePos).ph = s.ph := rfl
@[simp] theorem State.advancePos_fn (s : State) : (s.advancePos).fn = s.fn := rfl
@[simp] theorem State.advancePos_lerr (s : State) : (s.advancePos).lerr = s.lerr := rfl
@[simp] theorem State.advancePos_rsp (s : State) : (s.advancePos).rsp = s.rsp := rfl
@[simp] theorem State.advancePos_inputs (s : State) : (s.advancePos).inputs = s.inputs := rfl
@[simp] theorem State.advancePos_resets (s : State) : (s.advancePos).resets = s.resets := rfl

/-! ### countByte -/
@[simp] theorem State.countByte_H (s : State) : (s.countByte).H = s.H := rfl
@[simp] theorem State.countByte_W (s : State) : (s.countByte).W = s.W := rfl
@[simp] theorem State.countByte_acc (s : State) : (s.countByte).acc = s.acc := rfl
@[simp] theorem State.countByte_len (s : State) : (s.countByte).len = s.len + 1 := rfl
@[simp] theorem State.countByte_pos (s : State) : (s.countByte).pos = s.pos := rfl
@[simp] theorem State.countByte_oi (s : State) : (s.countByte).oi = s.oi := rfl
@[simp] theorem State.countByte_ph (s : State) : (s.countByte).ph = s.ph := rfl
@[simp] theorem State.countByte_fn (s : State) : (s.countByte).fn = s.fn := rfl
@[simp] theorem State.countByte_lerr (s : State) : (s.countByte).lerr = s.lerr := rfl
@[simp] theorem State.countByte_rsp (s : State) : (s.countByte).rsp = s.rsp := rfl
@[simp] theorem State.countByte_inputs (s : State) : (s.countByte).inputs = s.inputs := rfl
@[simp] theorem State.countByte_resets (s : State) : (s.countByte).resets = s.resets := rfl

/-! ### setOi -/
@[simp] theorem State.setOi_H (s : State) (n : BitVec 5) : (s.setOi n).H = s.H := rfl
@[simp] theorem State.setOi_W (s : State) (n : BitVec 5) : (s.setOi n).W = s.W := rfl
@[simp] theorem State.setOi_acc (s : State) (n : BitVec 5) : (s.setOi n).acc = s.acc := rfl
@[simp] theorem State.setOi_len (s : State) (n : BitVec 5) : (s.setOi n).len = s.len := rfl
@[simp] theorem State.setOi_pos (s : State) (n : BitVec 5) : (s.setOi n).pos = s.pos := rfl
@[simp] theorem State.setOi_oi (s : State) (n : BitVec 5) : (s.setOi n).oi = n := rfl
@[simp] theorem State.setOi_ph (s : State) (n : BitVec 5) : (s.setOi n).ph = s.ph := rfl
@[simp] theorem State.setOi_fn (s : State) (n : BitVec 5) : (s.setOi n).fn = s.fn := rfl
@[simp] theorem State.setOi_lerr (s : State) (n : BitVec 5) : (s.setOi n).lerr = s.lerr := rfl
@[simp] theorem State.setOi_rsp (s : State) (n : BitVec 5) : (s.setOi n).rsp = s.rsp := rfl
@[simp] theorem State.setOi_inputs (s : State) (n : BitVec 5) : (s.setOi n).inputs = s.inputs := rfl
@[simp] theorem State.setOi_resets (s : State) (n : BitVec 5) : (s.setOi n).resets = s.resets := rfl

/-! ### setPh -/
@[simp] theorem State.setPh_H (s : State) (p : Phase) : (s.setPh p).H = s.H := rfl
@[simp] theorem State.setPh_W (s : State) (p : Phase) : (s.setPh p).W = s.W := rfl
@[simp] theorem State.setPh_acc (s : State) (p : Phase) : (s.setPh p).acc = s.acc := rfl
@[simp] theorem State.setPh_len (s : State) (p : Phase) : (s.setPh p).len = s.len := rfl
@[simp] theorem State.setPh_pos (s : State) (p : Phase) : (s.setPh p).pos = s.pos := rfl
@[simp] theorem State.setPh_oi (s : State) (p : Phase) : (s.setPh p).oi = s.oi := rfl
@[simp] theorem State.setPh_ph (s : State) (p : Phase) : (s.setPh p).ph = p := rfl
@[simp] theorem State.setPh_fn (s : State) (p : Phase) : (s.setPh p).fn = s.fn := rfl
@[simp] theorem State.setPh_lerr (s : State) (p : Phase) : (s.setPh p).lerr = s.lerr := rfl
@[simp] theorem State.setPh_rsp (s : State) (p : Phase) : (s.setPh p).rsp = s.rsp := rfl
@[simp] theorem State.setPh_inputs (s : State) (p : Phase) : (s.setPh p).inputs = s.inputs := rfl
@[simp] theorem State.setPh_resets (s : State) (p : Phase) : (s.setPh p).resets = s.resets := rfl

/-! ### captureFn -/
@[simp] theorem State.captureFn_H (s : State) (fid : BitVec 8) : (s.captureFn fid).H = s.H := rfl
@[simp] theorem State.captureFn_W (s : State) (fid : BitVec 8) : (s.captureFn fid).W = s.W := rfl
@[simp] theorem State.captureFn_acc (s : State) (fid : BitVec 8) : (s.captureFn fid).acc = s.acc := rfl
@[simp] theorem State.captureFn_len (s : State) (fid : BitVec 8) : (s.captureFn fid).len = s.len := rfl
@[simp] theorem State.captureFn_pos (s : State) (fid : BitVec 8) : (s.captureFn fid).pos = s.pos := rfl
@[simp] theorem State.captureFn_oi (s : State) (fid : BitVec 8) : (s.captureFn fid).oi = s.oi := rfl
@[simp] theorem State.captureFn_ph (s : State) (fid : BitVec 8) : (s.captureFn fid).ph = .idle := rfl
@[simp] theorem State.captureFn_fn (s : State) (fid : BitVec 8) : (s.captureFn fid).fn = some fid := rfl
@[simp] theorem State.captureFn_lerr (s : State) (fid : BitVec 8) : (s.captureFn fid).lerr = s.lerr := rfl
@[simp] theorem State.captureFn_rsp (s : State) (fid : BitVec 8) : (s.captureFn fid).rsp = s.rsp := rfl
@[simp] theorem State.captureFn_inputs (s : State) (fid : BitVec 8) : (s.captureFn fid).inputs = s.inputs := rfl
@[simp] theorem State.captureFn_resets (s : State) (fid : BitVec 8) : (s.captureFn fid).resets = s.resets := rfl

/-! ### beginCall -/
@[simp] theorem State.beginCall_H (s : State) (iv : DigestWords) : (s.beginCall iv).H = iv := rfl
@[simp] theorem State.beginCall_W (s : State) (iv : DigestWords) : (s.beginCall iv).W = Vector.replicate 16 0 := rfl
@[simp] theorem State.beginCall_acc (s : State) (iv : DigestWords) : (s.beginCall iv).acc = 0 := rfl
@[simp] theorem State.beginCall_len (s : State) (iv : DigestWords) : (s.beginCall iv).len = 0 := rfl
@[simp] theorem State.beginCall_pos (s : State) (iv : DigestWords) : (s.beginCall iv).pos = 0 := rfl
@[simp] theorem State.beginCall_oi (s : State) (iv : DigestWords) : (s.beginCall iv).oi = 0 := rfl
@[simp] theorem State.beginCall_ph (s : State) (iv : DigestWords) : (s.beginCall iv).ph = .absorb := rfl
@[simp] theorem State.beginCall_fn (s : State) (iv : DigestWords) : (s.beginCall iv).fn = s.fn := rfl
@[simp] theorem State.beginCall_lerr (s : State) (iv : DigestWords) : (s.beginCall iv).lerr = .ok := rfl
@[simp] theorem State.beginCall_rsp (s : State) (iv : DigestWords) : (s.beginCall iv).rsp = s.rsp := rfl
@[simp] theorem State.beginCall_inputs (s : State) (iv : DigestWords) : (s.beginCall iv).inputs = s.inputs := rfl
@[simp] theorem State.beginCall_resets (s : State) (iv : DigestWords) : (s.beginCall iv).resets = s.resets := rfl

/-! ### latch -/
@[simp] theorem State.latch_H (s : State) (e : Code) (p : Phase) : (s.latch e p).H = s.H := rfl
@[simp] theorem State.latch_W (s : State) (e : Code) (p : Phase) : (s.latch e p).W = s.W := rfl
@[simp] theorem State.latch_acc (s : State) (e : Code) (p : Phase) : (s.latch e p).acc = s.acc := rfl
@[simp] theorem State.latch_len (s : State) (e : Code) (p : Phase) : (s.latch e p).len = s.len := rfl
@[simp] theorem State.latch_pos (s : State) (e : Code) (p : Phase) : (s.latch e p).pos = s.pos := rfl
@[simp] theorem State.latch_oi (s : State) (e : Code) (p : Phase) : (s.latch e p).oi = s.oi := rfl
@[simp] theorem State.latch_ph (s : State) (e : Code) (p : Phase) : (s.latch e p).ph = p := rfl
@[simp] theorem State.latch_fn (s : State) (e : Code) (p : Phase) : (s.latch e p).fn = s.fn := rfl
@[simp] theorem State.latch_lerr (s : State) (e : Code) (p : Phase) : (s.latch e p).lerr = e := rfl
@[simp] theorem State.latch_rsp (s : State) (e : Code) (p : Phase) : (s.latch e p).rsp = s.rsp := rfl
@[simp] theorem State.latch_inputs (s : State) (e : Code) (p : Phase) : (s.latch e p).inputs = s.inputs := rfl
@[simp] theorem State.latch_resets (s : State) (e : Code) (p : Phase) : (s.latch e p).resets = s.resets := rfl

/-! ### respond -/
@[simp] theorem State.respond_H (s : State) (e : Code) (d : Sym) : (s.respond e d).H = s.H := rfl
@[simp] theorem State.respond_W (s : State) (e : Code) (d : Sym) : (s.respond e d).W = s.W := rfl
@[simp] theorem State.respond_acc (s : State) (e : Code) (d : Sym) : (s.respond e d).acc = s.acc := rfl
@[simp] theorem State.respond_len (s : State) (e : Code) (d : Sym) : (s.respond e d).len = s.len := rfl
@[simp] theorem State.respond_pos (s : State) (e : Code) (d : Sym) : (s.respond e d).pos = s.pos := rfl
@[simp] theorem State.respond_oi (s : State) (e : Code) (d : Sym) : (s.respond e d).oi = s.oi := rfl
@[simp] theorem State.respond_ph (s : State) (e : Code) (d : Sym) : (s.respond e d).ph = s.ph := rfl
@[simp] theorem State.respond_fn (s : State) (e : Code) (d : Sym) : (s.respond e d).fn = s.fn := rfl
@[simp] theorem State.respond_lerr (s : State) (e : Code) (d : Sym) : (s.respond e d).lerr = s.lerr := rfl
@[simp] theorem State.respond_rsp (s : State) (e : Code) (d : Sym) : (s.respond e d).rsp = some (responseWord e d s) := rfl
@[simp] theorem State.respond_inputs (s : State) (e : Code) (d : Sym) : (s.respond e d).inputs = s.inputs := rfl
@[simp] theorem State.respond_resets (s : State) (e : Code) (d : Sym) : (s.respond e d).resets = s.resets := rfl

/-! ### silent -/
@[simp] theorem State.silent_H (s : State) : (s.silent).H = s.H := rfl
@[simp] theorem State.silent_W (s : State) : (s.silent).W = s.W := rfl
@[simp] theorem State.silent_acc (s : State) : (s.silent).acc = s.acc := rfl
@[simp] theorem State.silent_len (s : State) : (s.silent).len = s.len := rfl
@[simp] theorem State.silent_pos (s : State) : (s.silent).pos = s.pos := rfl
@[simp] theorem State.silent_oi (s : State) : (s.silent).oi = s.oi := rfl
@[simp] theorem State.silent_ph (s : State) : (s.silent).ph = s.ph := rfl
@[simp] theorem State.silent_fn (s : State) : (s.silent).fn = s.fn := rfl
@[simp] theorem State.silent_lerr (s : State) : (s.silent).lerr = s.lerr := rfl
@[simp] theorem State.silent_rsp (s : State) : (s.silent).rsp = none := rfl
@[simp] theorem State.silent_inputs (s : State) : (s.silent).inputs = s.inputs := rfl
@[simp] theorem State.silent_resets (s : State) : (s.silent).resets = s.resets := rfl

end Sys2Proof.Machine
end

