-- ==== Sys2Proof/Laws/Ops.lean ====
section
/-! SUPPORT. What each shared operation can do, said once; the provers cite these instead of unfolding the operations. -/

namespace Sys2Proof.Machine

/-! ### Codec and byte lanes -/

/-- R110: accepted exactly for codes up to 255. -/
theorem charToByte_eq_some_iff (sym : Sym) (b : Byte) :
    charToByte sym = some b ↔ sym.toNat ≤ 255 ∧ b = sym.extractLsb' 0 8 := by
  unfold charToByte
  split <;> simp_all
  grind

theorem charToByte_eq_none_iff (sym : Sym) : charToByte sym = none ↔ 255 < sym.toNat := by
  unfold charToByte
  split <;> simp_all

/-- R142: the codec calls are the identity on generated bytes and never raise. -/
theorem generated_through_codec (n : Nat) (h : n ≤ 255) :
    (byteToChar n).bind charToByte = some (BitVec.ofNat 8 n) := by
  have h1 : (BitVec.ofNat 8 n).setWidth 16 = BitVec.ofNat 16 n := by
    apply BitVec.eq_of_toNat_eq; simp; omega
  have h2 : charToByte (BitVec.ofNat 16 n) = some (BitVec.ofNat 8 n) := by
    rw [charToByte_eq_some_iff]
    refine ⟨by simp; omega, ?_⟩
    apply BitVec.eq_of_toNat_eq
    simp
  simp [byteToChar, Nat.not_lt.mpr h, h1, h2]

theorem feedGenerated_of_le (c : Config) (n : Nat) (s : State) (h : n ≤ 255) :
    feedGenerated c n s = feed c (BitVec.ofNat 8 n) s := by
  simp [feedGenerated, generated_through_codec n h]

theorem byteOfWord_le (v : Word) (j : Nat) : byteOfWord v j ≤ 255 := Nat.and_le_right

theorem lengthBytes_le (n : Nat) : ∀ b ∈ lengthBytes n, b ≤ 255 := by
  intro b hb
  obtain ⟨k, -, rfl⟩ := List.mem_map.mp hb
  exact Nat.and_le_right

/-! ### Response, errors, admission -/

theorem takeError_abort (e : Code) (s : State) : takeError .abort e s = (s.latch e .idle).respond e 0 := rfl
theorem takeError_refusal (e : Code) (s : State) : takeError .refusal e s = s.respond e 0 := rfl
theorem takeError_fatal (e : Code) (s : State) : takeError .fatal e s = (s.latch e .dead).respond e 0 := rfl

/-- A command is admitted exactly in the bound phases its rule names (R209, steps 3 to 5). -/
theorem admission_eq_none_iff (p : Phase → Bool) (s : State) :
    admission p s = none ↔ operating s.ph ∧ p s.ph = true := by
  unfold admission operating
  cases h : s.ph <;> simp

theorem admission_eq_some_iff (p : Phase → Bool) (s : State) (e : Code) :
    admission p s = some e ↔
      (e = .capabilityNotBound ∧ (s.ph = .unbound ∨ s.ph = .dead)) ∨
      (e = .seqError ∧ operating s.ph ∧ p s.ph = false) := by
  unfold admission operating
  cases h : s.ph <;> simp
  all_goals grind

theorem conclude_ok (s : State) : conclude (.ok s) = .next (s.respond .ok 0) := rfl
theorem conclude_raise (e : Code) (s : State) : conclude (.error (.raise e s)) = .next (takeError .abort e s) := rfl
theorem conclude_fault (r : Fault) : conclude (.error (.fault r)) = .fault r := rfl

/-- The fields of a response word, R86: each reads back what was put in. -/
theorem rspCode_responseWord (e : Code) (d : Sym) (s : State) : rspCode (responseWord e d s) = e.bits := by
  unfold rspCode responseWord
  ext i hi
  simp only [BitVec.getElem_extractLsb', BitVec.getLsbD_append]
  interval_cases i <;> simp

theorem rspPhase_responseWord (e : Code) (d : Sym) (s : State) : rspPhase (responseWord e d s) = s.ph.bits := by
  unfold rspPhase responseWord State.status
  ext i hi
  simp only [BitVec.getElem_extractLsb', BitVec.getLsbD_append]
  interval_cases i <;> simp

theorem rspBound_responseWord (e : Code) (d : Sym) (s : State) :
    rspBound (responseWord e d s) = BitVec.ofBool s.bound := by
  unfold rspBound responseWord State.status
  ext i hi
  simp only [BitVec.getElem_extractLsb', BitVec.getLsbD_append]
  interval_cases i
  simp

theorem rspZero_responseWord (e : Code) (d : Sym) (s : State) : rspZero (responseWord e d s) = 0 := by
  unfold rspZero responseWord State.status
  ext i hi
  simp only [BitVec.getElem_extractLsb', BitVec.getLsbD_append]
  interval_cases i <;> simp

theorem rspLerr_responseWord (e : Code) (d : Sym) (s : State) : rspLerr (responseWord e d s) = s.lerr.bits := by
  unfold rspLerr responseWord State.status
  ext i hi
  simp only [BitVec.getElem_extractLsb', BitVec.getLsbD_append]
  interval_cases i <;> simp

theorem rspData_responseWord (e : Code) (d : Sym) (s : State) : rspData (responseWord e d s) = d := by
  unfold rspData responseWord
  ext i hi
  simp only [BitVec.getElem_extractLsb', BitVec.getLsbD_append]
  simp [hi]

/-! ### `Compress` and `Feed` -/

theorem fnTable_zero (c : Config) : fnTable c 0 = some placeholder := rfl

theorem compress_eq_ok_iff (c : Config) (s t : State) :
    compress c s = .ok t ↔ ∃ F, boundFn c s = some F ∧ t = s.setH (F s.H s.W) := by
  unfold compress
  split <;> simp_all
  grind

/-- What `packByte` leaves alone. -/
theorem packByte_frame (b : Byte) (s : State) :
    (packByte b s).H = s.H ∧ (packByte b s).len = s.len ∧ (packByte b s).pos = s.pos ∧ (packByte b s).oi = s.oi ∧
    (packByte b s).ph = s.ph ∧ (packByte b s).fn = s.fn ∧ (packByte b s).lerr = s.lerr ∧
    (packByte b s).rsp = s.rsp ∧ (packByte b s).inputs = s.inputs ∧ (packByte b s).resets = s.resets := by
  unfold packByte
  split <;> simp [*]

theorem packByte_acc (b : Byte) (s : State) : (packByte b s).acc = (s.acc <<< 8) ||| b.setWidth 32 := by
  unfold packByte
  split <;> simp [*]

theorem packByte_W (b : Byte) (s : State) :
    (packByte b s).W =
      if completesWord s.pos then
        s.W.set (s.pos.extractLsb' 2 4).toNat ((s.acc <<< 8) ||| b.setWidth 32) (s.pos.extractLsb' 2 4).isLt
      else s.W := by
  unfold packByte
  split <;> simp [*]

/-- The state after `Feed(b)` when `F` is bound (R153). -/
def fed (F : CompressionFn) (b : Byte) (s : State) : State :=
  let s1 := packByte b s
  (if completesBlock s.pos then s1.setH (F s1.H s1.W) else s1).advancePos

theorem boundFn_congr (c : Config) {s t : State} (h : s.fn = t.fn) : boundFn c s = boundFn c t := by
  simp [boundFn, h]

/-- `Feed` never stops on a bound engine (R153, R182). -/
theorem feed_of_bound (c : Config) (F : CompressionFn) (b : Byte) (s : State) (h : boundFn c s = some F) :
    feed c b s = .ok (fed F b s) := by
  have h1 : boundFn c (packByte b s) = some F := by
    rw [boundFn_congr c (packByte_frame b s).2.2.2.2.2.1, h]
  unfold feed fed compress
  split <;> simp [h1]
  rfl

/-- What `Feed` can do, bound or not. -/
theorem feed_cases (c : Config) (b : Byte) (s : State) :
    (∃ F, boundFn c s = some F ∧ feed c b s = .ok (fed F b s)) ∨
    (boundFn c s = none ∧ completesBlock s.pos = false ∧ feed c b s = .ok (packByte b s).advancePos) ∨
    (boundFn c s = none ∧ completesBlock s.pos = true ∧ feed c b s = .error (.fault .compressUnbound)) := by
  cases h : boundFn c s with
  | some F => exact .inl ⟨F, rfl, feed_of_bound c F b s h⟩
  | none =>
    have h1 : boundFn c (packByte b s) = none := by
      rw [boundFn_congr c (packByte_frame b s).2.2.2.2.2.1, h]
    cases hp : completesBlock s.pos with
    | false => exact .inr (.inl ⟨rfl, rfl, by simp [feed, hp]; rfl⟩)
    | true => exact .inr (.inr ⟨rfl, rfl, by simp [feed, hp, compress, h1]⟩)

/-- What `Feed` leaves alone (R158), and how it moves `pos` and `acc` (R153). -/
theorem fed_frame (F : CompressionFn) (b : Byte) (s : State) :
    (fed F b s).len = s.len ∧ (fed F b s).oi = s.oi ∧ (fed F b s).ph = s.ph ∧ (fed F b s).fn = s.fn ∧
    (fed F b s).lerr = s.lerr ∧ (fed F b s).rsp = s.rsp ∧ (fed F b s).inputs = s.inputs ∧
    (fed F b s).resets = s.resets ∧ (fed F b s).pos = s.pos + 1 ∧ (fed F b s).acc = (packByte b s).acc ∧
    (fed F b s).W = (packByte b s).W := by
  have h := packByte_frame b s
  unfold fed
  split <;> simp [h]

theorem fed_H (F : CompressionFn) (b : Byte) (s : State) :
    (fed F b s).H = if completesBlock s.pos then F s.H (packByte b s).W else s.H := by
  have h := packByte_frame b s
  unfold fed
  split <;> simp [h]

theorem feed_frame (c : Config) (b : Byte) (s t : State) (h : feed c b s = .ok t) :
    t.len = s.len ∧ t.oi = s.oi ∧ t.ph = s.ph ∧ t.fn = s.fn ∧ t.lerr = s.lerr ∧ t.rsp = s.rsp ∧
    t.inputs = s.inputs ∧ t.resets = s.resets ∧ t.pos = s.pos + 1 ∧ t.acc = (packByte b s).acc ∧
    t.W = (packByte b s).W := by
  have hp := packByte_frame b s
  obtain ⟨F, -, hF⟩ | ⟨-, -, hF⟩ | ⟨-, -, hF⟩ := feed_cases c b s
  · rw [hF] at h; cases h; exact fed_frame F b s
  · rw [hF] at h; cases h; simp [hp]
  · rw [hF] at h; cases h

/-! ### Byte streams -/

/-- The state after a byte stream when `F` is bound. -/
def fedAll (F : CompressionFn) : List Byte → State → State
  | [], s => s
  | b :: bs, s => fedAll F bs (fed F b s)

theorem fedAll_append (F : CompressionFn) (p q : List Byte) (s : State) :
    fedAll F (p ++ q) s = fedAll F q (fedAll F p s) := by
  induction p generalizing s with
  | nil => rfl
  | cons b p ih => simp [fedAll, ih]

theorem fedAll_frame (F : CompressionFn) (p : List Byte) (s : State) :
    (fedAll F p s).len = s.len ∧ (fedAll F p s).oi = s.oi ∧ (fedAll F p s).ph = s.ph ∧ (fedAll F p s).fn = s.fn ∧
    (fedAll F p s).lerr = s.lerr ∧ (fedAll F p s).rsp = s.rsp ∧ (fedAll F p s).inputs = s.inputs ∧
    (fedAll F p s).resets = s.resets ∧ (fedAll F p s).pos = s.pos + BitVec.ofNat 6 p.length := by
  induction p generalizing s with
  | nil => simp [fedAll]
  | cons b p ih =>
    have h := fed_frame F b s
    simp only [fedAll]
    refine ⟨?_, ?_, ?_, ?_, ?_, ?_, ?_, ?_, ?_⟩ <;> simp only [ih, h]
    rw [List.length_cons]
    apply BitVec.eq_of_toNat_eq
    simp
    omega

theorem feedAll_append (c : Config) (p q : List Byte) (s : State) :
    feedAll c (p ++ q) s = feedAll c p s >>= feedAll c q := by
  induction p generalizing s with
  | nil => rfl
  | cons b p ih =>
    simp only [List.cons_append, feedAll]
    cases feed c b s with
    | error e => rfl
    | ok t => exact ih t

theorem feedAll_of_bound (c : Config) (F : CompressionFn) (p : List Byte) (s : State) (h : boundFn c s = some F) :
    feedAll c p s = .ok (fedAll F p s) := by
  induction p generalizing s with
  | nil => rfl
  | cons b p ih =>
    have h1 : boundFn c (fed F b s) = some F := by
      rw [boundFn_congr c (fed_frame F b s).2.2.2.1, h]
    simp only [feedAll, feed_of_bound c F b s h, fedAll]
    exact ih _ h1

/-- A stream that does not stop leaves the same registers alone as `Feed` does. -/
theorem feedAll_frame (c : Config) (p : List Byte) (s t : State) (h : feedAll c p s = .ok t) :
    t.len = s.len ∧ t.oi = s.oi ∧ t.ph = s.ph ∧ t.fn = s.fn ∧ t.lerr = s.lerr ∧ t.rsp = s.rsp ∧
    t.inputs = s.inputs ∧ t.resets = s.resets ∧ t.pos = s.pos + BitVec.ofNat 6 p.length := by
  induction p generalizing s with
  | nil => cases h; simp
  | cons b p ih =>
    simp only [feedAll] at h
    cases hf : feed c b s with
    | error e => rw [hf] at h; cases h
    | ok u =>
      rw [hf] at h
      have hu := feed_frame c b s u hf
      have ht := ih u h
      refine ⟨?_, ?_, ?_, ?_, ?_, ?_, ?_, ?_, ?_⟩ <;> simp only [ht, hu]
      rw [List.length_cons]
      apply BitVec.eq_of_toNat_eq
      simp
      omega

/-- The only way a stream stops is the fault of an unbound compression. -/
theorem feedAll_error (c : Config) (p : List Byte) (s : State) (e : Stop) (h : feedAll c p s = .error e) :
    e = .fault .compressUnbound ∧ boundFn c s = none := by
  induction p generalizing s with
  | nil => cases h
  | cons b p ih =>
    simp only [feedAll] at h
    obtain ⟨F, hb, hF⟩ | ⟨hb, -, hF⟩ | ⟨hb, -, hF⟩ := feed_cases c b s <;> rw [hF] at h
    · have := (ih _ h).2
      rw [boundFn_congr c (fed_frame F b s).2.2.2.1, hb] at this
      cases this
    · exact ⟨(ih _ h).1, hb⟩
    · cases h; exact ⟨rfl, hb⟩

theorem feedAllGenerated_eq_feedAll (c : Config) (ns : List Nat) (s : State) (h : ∀ n ∈ ns, n ≤ 255) :
    feedAllGenerated c ns s = feedAll c (ns.map (BitVec.ofNat 8)) s := by
  induction ns generalizing s with
  | nil => rfl
  | cons n ns ih =>
    simp only [feedAllGenerated, List.map_cons, feedAll, feedGenerated_of_le c n s (h n (by simp))]
    congr 1
    funext t
    exact ih t fun m hm => h m (by simp [hm])

/-! ### `FINAL` -/

/-- R143: the zero fill feeds exactly the zero bytes that bring `pos` to 56. -/
theorem zeroFill_eq_feedAll (c : Config) (n : Nat) (s : State) (h : (56 - s.pos).toNat ≤ n) :
    zeroFill c n s = feedAll c (List.replicate (56 - s.pos).toNat 0x00#8) s := by
  induction n generalizing s with
  | zero =>
    have : (56 - s.pos).toNat = 0 := by omega
    rw [zeroFill, this]
    rfl
  | succ n ih =>
    unfold zeroFill
    split
    · rename_i hp
      simp [hp, feedAll]
    · rename_i hp
      have hk : (56 - s.pos).toNat = (56 - (s.pos + 1)).toNat + 1 := by bv_omega
      rw [hk, List.replicate_succ, feedAll, feedGenerated_of_le c 0 s (by decide)]
      cases hf : feed c 0 s with
      | error e => rfl
      | ok t =>
        have ht := (feed_frame c 0 s t hf).2.2.2.2.2.2.2.2.1
        have := ih t (by rw [ht]; omega)
        rw [ht] at this
        exact this

/-- R142, R145: `FINAL` feeds the sentinel, the zero bytes that bring `pos` to 56 and the length, and no other byte. -/
theorem finalBody_eq (c : Config) (s : State) :
    finalBody c s = (feedAll c (finalStream s.pos s.len) s).map fun t => (t.setOi 0).setPh .done := by
  unfold finalBody finalStream
  rw [List.append_assoc, feedAll_append, feedGenerated_of_le c 0x80 s (by decide)]
  simp only [feedAll]
  cases hf : feed c 0x80 s with
  | error e => rfl
  | ok t =>
    have ht := feed_frame c 0x80 s t hf
    have hz : padZeros s.pos.toNat = (56 - t.pos).toNat := by
      rw [ht.2.2.2.2.2.2.2.2.1]
      unfold padZeros
      have := s.pos.isLt
      have h2 : (56 - (s.pos + 1)).toNat = (64 - (s.pos.toNat + 1) % 64 + 56) % 64 := by
        simp [BitVec.toNat_sub, BitVec.toNat_add]
      rw [h2]
      omega
    rw [hz]
    have hfill := zeroFill_eq_feedAll c 64 t (by have := (56 - t.pos).isLt; omega)
    show (zeroFill c 64 t >>= _) = Except.map _ (feedAll c _ t)
    rw [hfill, feedAll_append]
    cases hr : feedAll c (List.replicate (56 - t.pos).toNat 0x00#8) t with
    | error e => rfl
    | ok u =>
      have hu : u.len = s.len := by rw [(feedAll_frame c _ t u hr).1, ht.1]
      show (feedAllGenerated c _ u >>= _) = Except.map _ (feedAll c _ u)
      rw [feedAllGenerated_eq_feedAll c _ u (lengthBytes_le _), hu]
      unfold be64
      cases feedAll c ((lengthBytes (bitLength s.len)).map (BitVec.ofNat 8)) u <;> rfl

/-! ### The meanings -/

/-- `exec` is the parametric engine at the platform's parameters. -/
theorem exec_eq_execUnder (i : Instr) (s : State) : exec i s = execUnder Config.platform i s := by
  cases i <;> rfl

/-- Everything `BIND` can do. -/
theorem bindUnder_cases (c : Config) (fid : BitVec 8) (s : State) :
    (s.ph = .dead ∧ bindUnder c fid s = .next (takeError .refusal .capabilityNotBound s)) ∨
    (operating s.ph ∧ bindUnder c fid s = .next (takeError .refusal .seqError s)) ∨
    (s.ph = .unbound ∧ fnTable c fid = none ∧ bindUnder c fid s = .next (takeError .fatal .capabilityNotBound s)) ∨
    (s.ph = .unbound ∧ fnTable c fid ≠ none ∧ bindUnder c fid s = .next ((s.captureFn fid).respond .ok 0)) := by
  unfold bindUnder operating
  cases hp : s.ph <;> simp
  cases hf : fnTable c fid <;> simp

/-- Everything `START` can do. -/
theorem startUnder_cases (c : Config) (kind : Kind) (s : State) :
    (∃ e, admission startAdmitted s = some e ∧ startUnder c kind s = .next (takeError .refusal e s)) ∨
    (operating s.ph ∧ kind ≠ .string ∧ startUnder c kind s = .next (takeError .abort .typeMismatch s)) ∨
    (operating s.ph ∧ kind = .string ∧ startUnder c kind s = .next ((s.beginCall c.iv).respond .ok 0)) := by
  unfold startUnder
  cases ha : admission startAdmitted s with
  | some e => exact .inl ⟨e, rfl, rfl⟩
  | none =>
    have hop := ((admission_eq_none_iff _ _).mp ha).1
    cases kind with
    | string => exact .inr (.inr ⟨hop, rfl, rfl⟩)
    | _ => exact .inr (.inl ⟨hop, by simp, rfl⟩)

/-- Everything `PUSH` can do. -/
theorem pushUnder_cases (c : Config) (sym : Sym) (s : State) :
    (∃ e, admission absorbAdmitted s = some e ∧ pushUnder c sym s = .next (takeError .refusal e s)) ∨
    (admission absorbAdmitted s = none ∧ 255 < sym.toNat ∧
      pushUnder c sym s = .next (takeError .abort .rangeError s)) ∨
    (admission absorbAdmitted s = none ∧ sym.toNat ≤ 255 ∧ s.len = maxLen ∧
      pushUnder c sym s = .next (takeError .abort .lenOverflow s)) ∨
    (admission absorbAdmitted s = none ∧ sym.toNat ≤ 255 ∧ s.len ≠ maxLen ∧
      ∃ t, feed c (sym.extractLsb' 0 8) s = .ok t ∧ pushUnder c sym s = .next (t.countByte.respond .ok 0)) ∨
    (admission absorbAdmitted s = none ∧ sym.toNat ≤ 255 ∧ s.len ≠ maxLen ∧ boundFn c s = none ∧
      pushUnder c sym s = .fault .compressUnbound) := by
  unfold pushUnder
  cases ha : admission absorbAdmitted s with
  | some e => exact .inl ⟨e, rfl, rfl⟩
  | none =>
    refine .inr ?_
    unfold pushBody
    cases hc : charToByte sym with
    | none => exact .inl ⟨rfl, (charToByte_eq_none_iff sym).mp hc, rfl⟩
    | some b =>
      obtain ⟨hle, rfl⟩ := (charToByte_eq_some_iff sym b).mp hc
      refine .inr ?_
      by_cases hl : s.len = maxLen
      · exact .inl ⟨rfl, hle, hl, by simp [hl]; rfl⟩
      · refine .inr ?_
        obtain ⟨F, -, hF⟩ | ⟨-, -, hF⟩ | ⟨hb, -, hF⟩ := feed_cases c (sym.extractLsb' 0 8) s
        · exact .inl ⟨rfl, hle, hl, _, hF, by simp [hl, hF]; rfl⟩
        · exact .inl ⟨rfl, hle, hl, _, hF, by simp [hl, hF]; rfl⟩
        · exact .inr ⟨rfl, hle, hl, hb, by simp [hl, hF]; rfl⟩

/-- Everything `FINAL` can do. -/
theorem finalUnder_cases (c : Config) (s : State) :
    (∃ e, admission absorbAdmitted s = some e ∧ finalUnder c s = .next (takeError .refusal e s)) ∨
    (admission absorbAdmitted s = none ∧ ∃ t, feedAll c (finalStream s.pos s.len) s = .ok t ∧
      finalUnder c s = .next (((t.setOi 0).setPh .done).respond .ok 0)) ∨
    (admission absorbAdmitted s = none ∧ boundFn c s = none ∧ finalUnder c s = .fault .compressUnbound) := by
  unfold finalUnder
  cases ha : admission absorbAdmitted s with
  | some e => exact .inl ⟨e, rfl, rfl⟩
  | none =>
    refine .inr ?_
    rw [finalBody_eq]
    cases hf : feedAll c (finalStream s.pos s.len) s with
    | ok t => exact .inl ⟨rfl, t, rfl, rfl⟩
    | error e =>
      obtain ⟨rfl, hb⟩ := feedAll_error c _ s e hf
      exact .inr ⟨rfl, hb, rfl⟩

theorem digestByteAt_of_le (H : DigestWords) (oi : BitVec 5) (h : oi.toNat ≤ 19) :
    ∃ hk : digestWordIndex oi < 5, digestByteAt H oi = some (byteOfWord H[digestWordIndex oi] (digestByteIndex oi)) := by
  have hk : digestWordIndex oi < 5 := by
    unfold digestWordIndex
    rw [Nat.shiftRight_eq_div_pow]
    omega
  exact ⟨hk, by simp [digestByteAt, hk]⟩

theorem digestByteAt_le (H : DigestWords) (oi : BitVec 5) (b : Nat) (h : digestByteAt H oi = some b) : b ≤ 255 := by
  unfold digestByteAt at h
  obtain ⟨v, -, rfl⟩ := Option.map_eq_some_iff.mp h
  exact byteOfWord_le v _

/-- Everything `POP` can do; the path through `RangeError` is dead (R113). -/
theorem execPop_cases (s : State) :
    (∃ e, admission doneAdmitted s = some e ∧ execPop s = .next (takeError .refusal e s)) ∨
    (admission doneAdmitted s = none ∧ ∃ b, digestByteAt s.H s.oi = some b ∧ b ≤ 255 ∧
      execPop s = .next (s.consumeByte.respond .ok ((BitVec.ofNat 8 b).setWidth 16))) ∨
    (admission doneAdmitted s = none ∧ 19 < s.oi.toNat ∧ execPop s = .fault .digestIndexOutOfRange) := by
  unfold execPop
  cases ha : admission doneAdmitted s with
  | some e => exact .inl ⟨e, rfl, rfl⟩
  | none =>
    refine .inr ?_
    cases hd : digestByteAt s.H s.oi with
    | none =>
      refine .inr ⟨rfl, ?_, rfl⟩
      by_contra hle
      obtain ⟨_, h⟩ := digestByteAt_of_le s.H s.oi (by omega)
      simp [h] at hd
    | some b =>
      have hb := digestByteAt_le s.H s.oi b hd
      refine .inl ⟨rfl, b, rfl, hb, ?_⟩
      simp [byteToChar, Nat.not_lt.mpr hb]

/-- Every outcome a command can have: a refusal or `STAT`, an abort, the failed or the successful construction, the
start of a call, a byte absorbed, the padding, a digest byte, or a stop in a state R38 excludes. -/
inductive CommandOutcome (c : Config) (i : Instr) (s : State) : Host.Outcome State Fault Refusal → Prop where
  | status (h : i = .stat) : CommandOutcome c i s (.next (s.respond .ok 0))
  | unbound (h : i ≠ .stat) (hp : s.ph = .unbound ∨ s.ph = .dead) (hb : s.ph = .dead ∨ ∀ fid, i ≠ .bind fid) :
      CommandOutcome c i s (.next (s.respond .capabilityNotBound 0))
  | sequence (h : i ≠ .stat) (hk : ∀ kind, i ≠ .start kind) (hp : operating s.ph)
      (ha : (∃ sym, i = .push sym) ∨ i = .final → s.ph ≠ .absorb) (hd : i = .pop → s.ph ≠ .done) :
      CommandOutcome c i s (.next (s.respond .seqError 0))
  | aborted (e : Code)
      (h : (e = .typeMismatch ∧ operating s.ph ∧ ∃ kind, i = .start kind ∧ kind ≠ .string) ∨
           (e = .rangeError ∧ s.ph = .absorb ∧ ∃ sym, i = .push sym ∧ 255 < sym.toNat) ∨
           (e = .lenOverflow ∧ s.ph = .absorb ∧ s.len = maxLen ∧ ∃ sym, i = .push sym ∧ sym.toNat ≤ 255)) :
      CommandOutcome c i s (.next ((s.latch e .idle).respond e 0))
  | died (fid : BitVec 8) (h : i = .bind fid) (hp : s.ph = .unbound) (hf : fnTable c fid = none) :
      CommandOutcome c i s (.next ((s.latch .capabilityNotBound .dead).respond .capabilityNotBound 0))
  | constructed (fid : BitVec 8) (h : i = .bind fid) (hp : s.ph = .unbound) (hf : fnTable c fid ≠ none) :
      CommandOutcome c i s (.next ((s.captureFn fid).respond .ok 0))
  | started (h : i = .start .string) (hp : operating s.ph) :
      CommandOutcome c i s (.next ((s.beginCall c.iv).respond .ok 0))
  | absorbed (sym : Sym) (t : State) (h : i = .push sym) (hp : s.ph = .absorb) (hs : sym.toNat ≤ 255)
      (hl : s.len ≠ maxLen) (hf : feed c (sym.extractLsb' 0 8) s = .ok t) :
      CommandOutcome c i s (.next (t.countByte.respond .ok 0))
  | padded (t : State) (h : i = .final) (hp : s.ph = .absorb) (hf : feedAll c (finalStream s.pos s.len) s = .ok t) :
      CommandOutcome c i s (.next (((t.setOi 0).setPh .done).respond .ok 0))
  | popped (b : Nat) (h : i = .pop) (hp : s.ph = .done) (hb : digestByteAt s.H s.oi = some b) (hle : b ≤ 255) :
      CommandOutcome c i s (.next (s.consumeByte.respond .ok ((BitVec.ofNat 8 b).setWidth 16)))
  | stopped (r : Fault) (h : (r = .compressUnbound ∧ s.ph = .absorb ∧ boundFn c s = none ∧
          (i = .final ∨ ∃ sym, i = .push sym ∧ sym.toNat ≤ 255 ∧ s.len ≠ maxLen)) ∨
        (r = .digestIndexOutOfRange ∧ s.ph = .done ∧ 19 < s.oi.toNat ∧ i = .pop)) :
      CommandOutcome c i s (.fault r)

theorem operating_absorb {p : Phase} (h : operating p) (ha : absorbAdmitted p = true) : p = .absorb := by
  cases p <;> simp_all [absorbAdmitted]

theorem operating_done {p : Phase} (h : operating p) (ha : doneAdmitted p = true) : p = .done := by
  cases p <;> simp_all [doneAdmitted]

/-- What a command can do, whatever the parameters. -/
theorem execUnder_outcome (c : Config) (i : Instr) (s : State) : CommandOutcome c i s (execUnder c i s) := by
  cases i with
  | stat => exact .status rfl
  | bind fid =>
    simp only [execUnder]
    obtain ⟨hp, h⟩ | ⟨hp, h⟩ | ⟨hp, hf, h⟩ | ⟨hp, hf, h⟩ := bindUnder_cases c fid s <;> rw [h]
    · exact .unbound (by simp) (.inr hp) (.inl hp)
    · exact .sequence (by simp) (by simp) hp (by simp) (by simp)
    · exact .died fid rfl hp hf
    · exact .constructed fid rfl hp hf
  | start kind =>
    simp only [execUnder]
    obtain ⟨e, ha, h⟩ | ⟨hp, hk, h⟩ | ⟨hp, rfl, h⟩ := startUnder_cases c kind s <;> rw [h]
    · obtain ⟨rfl, hp⟩ | ⟨rfl, hp, hq⟩ := (admission_eq_some_iff _ _ _).mp ha
      · exact .unbound (by simp) hp (.inr (by simp))
      · rcases hp with hp | hp | hp <;> simp [hp, startAdmitted] at hq
    · exact .aborted _ (.inl ⟨rfl, hp, kind, rfl, hk⟩)
    · exact .started rfl hp
  | push sym =>
    simp only [execUnder]
    obtain ⟨e, ha, h⟩ | ⟨ha, hs, h⟩ | ⟨ha, hs, hl, h⟩ | ⟨ha, hs, hl, t, hf, h⟩ | ⟨ha, hs, hl, hb, h⟩ :=
      pushUnder_cases c sym s <;> rw [h]
    · obtain ⟨rfl, hp⟩ | ⟨rfl, hp, hq⟩ := (admission_eq_some_iff _ _ _).mp ha
      · exact .unbound (by simp) hp (.inr (by simp))
      · exact .sequence (by simp) (by simp) hp (fun _ hx => by simp [hx, absorbAdmitted] at hq) (by simp)
    all_goals
      obtain ⟨hp, hq⟩ := (admission_eq_none_iff _ _).mp ha
      have hp := operating_absorb hp hq
    · exact .aborted _ (.inr (.inl ⟨rfl, hp, sym, rfl, hs⟩))
    · exact .aborted _ (.inr (.inr ⟨rfl, hp, hl, sym, rfl, hs⟩))
    · exact .absorbed sym t rfl hp hs hl hf
    · exact .stopped _ (.inl ⟨rfl, hp, hb, .inr ⟨sym, rfl, hs, hl⟩⟩)
  | final =>
    simp only [execUnder]
    obtain ⟨e, ha, h⟩ | ⟨ha, t, hf, h⟩ | ⟨ha, hb, h⟩ := finalUnder_cases c s <;> rw [h]
    · obtain ⟨rfl, hp⟩ | ⟨rfl, hp, hq⟩ := (admission_eq_some_iff _ _ _).mp ha
      · exact .unbound (by simp) hp (.inr (by simp))
      · exact .sequence (by simp) (by simp) hp (fun _ hx => by simp [hx, absorbAdmitted] at hq) (by simp)
    all_goals
      obtain ⟨hp, hq⟩ := (admission_eq_none_iff _ _).mp ha
      have hp := operating_absorb hp hq
    · exact .padded t rfl hp hf
    · exact .stopped _ (.inl ⟨rfl, hp, hb, .inl rfl⟩)
  | pop =>
    simp only [execUnder]
    obtain ⟨e, ha, h⟩ | ⟨ha, b, hb, hle, h⟩ | ⟨ha, hb, h⟩ := execPop_cases s <;> rw [h]
    · obtain ⟨rfl, hp⟩ | ⟨rfl, hp, hq⟩ := (admission_eq_some_iff _ _ _).mp ha
      · exact .unbound (by simp) hp (.inr (by simp))
      · exact .sequence (by simp) (by simp) hp (by simp) (fun _ hx => by simp [hx, doneAdmitted] at hq)
    all_goals
      obtain ⟨hp, hq⟩ := (admission_eq_none_iff _ _).mp ha
      have hp := operating_done hp hq
    · exact .popped b rfl hp hb hle
    · exact .stopped _ (.inr ⟨rfl, hp, hb, rfl⟩)

theorem consumeByte_frame (s : State) :
    s.consumeByte.H = s.H ∧ s.consumeByte.W = s.W ∧ s.consumeByte.acc = s.acc ∧ s.consumeByte.len = s.len ∧
    s.consumeByte.pos = s.pos ∧ s.consumeByte.fn = s.fn ∧ s.consumeByte.lerr = s.lerr ∧
    s.consumeByte.rsp = s.rsp ∧ s.consumeByte.inputs = s.inputs ∧ s.consumeByte.resets = s.resets := by
  unfold State.consumeByte
  split <;> simp

/-! ### Events -/

theorem nextEvent_nil (s : State) (h : s.inputs = []) : nextEvent s = none := by simp [nextEvent, h]

theorem nextEvent_cons (s : State) (e : HostEvent) (rest : List HostEvent) (h : s.inputs = e :: rest) :
    nextEvent s = some (e, { s with inputs := rest }) := by simp [nextEvent, h]

/-- Everything a step can do. -/
theorem step_cases (s : State) :
    (s.inputs = [] ∧ step s = .next s.silent) ∨
    (∃ rest, s.inputs = .reset :: rest ∧ step s = .next (resetEvent { s with inputs := rest })) ∨
    (∃ w rest why, s.inputs = .command w :: rest ∧ decode w = .illegal why ∧
      step s = .next (answerIllegal { s with inputs := rest })) ∨
    (∃ w rest i, s.inputs = .command w :: rest ∧ decode w = .command i ∧
      step s = execUnder Config.platform i { s with inputs := rest }) := by
  unfold step nextEvent runWord
  cases h : s.inputs with
  | nil => exact .inl ⟨rfl, rfl⟩
  | cons e rest =>
    cases e with
    | reset => exact .inr (.inl ⟨rest, rfl, rfl⟩)
    | command w =>
      cases hd : decode w with
      | illegal why => exact .inr (.inr (.inl ⟨w, rest, why, rfl, hd, by simp [hd]⟩))
      | command i => exact .inr (.inr (.inr ⟨w, rest, i, rfl, hd, by simp [hd, exec_eq_execUnder]⟩))

/-- What a reset event leaves (R240). -/
theorem resetEvent_defined (s : State) :
    (resetEvent s).ph = .unbound ∧ (resetEvent s).fn = none ∧ (resetEvent s).lerr = .ok ∧ (resetEvent s).rsp = none ∧
    (resetEvent s).inputs = s.inputs ∧ (resetEvent s).resets = s.resets + 1 := by
  simp [resetEvent]

end Sys2Proof.Machine
end

