-- ==== Sys2Proof/Laws/PerInstr.lean ====
section
/-! SUPPORT. Facts about commands as syntax, one lemma per constructor of `Instr`. -/

namespace Sys2Proof.Laws

/-- Family `Spelling`: the encoder's word is the row of R90 with the operand in its low bits: it spells the row, and
its opcode is the row's. -/
def Spelling.Statement (i : Instr) : Prop :=
  (rowOf i).spells (encode i) = true ∧ opcode (encode i) = opcode (rowOf i).pattern

theorem Spelling.bind (fid : BitVec 8) : Spelling.Statement (.bind fid) := by
  constructor
  · simp only [OpcodeRow.spells, rowOf, encode, beq_iff_eq]
    ext i hi
    simp only [BitVec.getElem_and, BitVec.getElem_append]
    interval_cases i <;> simp
  · simp only [opcode, rowOf, encode]
    ext i hi
    simp only [BitVec.getElem_extractLsb', BitVec.getLsbD_append]
    interval_cases i <;> simp

theorem Spelling.start (kind : Kind) : Spelling.Statement (.start kind) := by
  constructor
  · simp only [OpcodeRow.spells, rowOf, encode, beq_iff_eq]
    ext i hi
    simp only [BitVec.getElem_and, BitVec.getElem_append]
    interval_cases i <;> simp
  · simp only [opcode, rowOf, encode]
    ext i hi
    simp only [BitVec.getElem_extractLsb', BitVec.getLsbD_append]
    interval_cases i <;> simp

theorem Spelling.push (sym : Sym) : Spelling.Statement (.push sym) := by
  constructor
  · simp only [OpcodeRow.spells, rowOf, encode, beq_iff_eq]
    ext i hi
    simp only [BitVec.getElem_and, BitVec.getElem_append]
    interval_cases i <;> simp
  · simp only [opcode, rowOf, encode]
    ext i hi
    simp only [BitVec.getElem_extractLsb', BitVec.getLsbD_append]
    interval_cases i <;> simp

theorem Spelling.final : Spelling.Statement .final := by constructor <;> decide

theorem Spelling.pop : Spelling.Statement .pop := by constructor <;> decide

theorem Spelling.stat : Spelling.Statement .stat := by constructor <;> decide

end Sys2Proof.Laws
end

