-- ==== Sys2Proof/Tests/Slice0.lean ====
section
/-! SUPPORT. Tests of single facts of spec/, expected values from 30_encoding.md and 95_test_vectors.md, and for each
obligation with hypotheses a concrete state and operands that meet them. -/

open Sys2Proof Sys2Proof.Machine

namespace Sys2Proof.Tests

/-! ### Fixtures of 95_test_vectors.md -/

/-- `IV_T`. -/
def ivT : DigestWords := #v[0x67452301, 0xEFCDAB89, 0x98BADCFE, 0x10325476, 0xC3D2E1F0]

/-- `F_mix`. -/
def fMix : CompressionFn := fun S X =>
  #v[S[1].rotateLeft 5 + X[0] + X[5] + X[10] + X[15], S[2].rotateLeft 5 + X[1] + X[6] + X[11],
     S[3].rotateLeft 5 + X[2] + X[7] + X[12], S[4].rotateLeft 5 + X[3] + X[8] + X[13],
     S[0].rotateLeft 5 + X[4] + X[9] + X[14]]

/-- `IV_T` with `Fn_T(1) = F_mix`. -/
def cT : Config := ⟨ivT, fun fid => if fid = 1#8 then some fMix else none, none⟩

/-- An engine in a phase, with the placeholder bound in the operating phases. -/
def engine (p : Phase) : State :=
  { State.reset with
    ph := p
    fn := if p = .unbound ∨ p = .dead then none else some 0
    lerr := if p = .dead then .capabilityNotBound else .ok }

/-- The call of program P1 after its sixth step, `"abc"` absorbed. -/
def abcAbsorbed (fid : BitVec 8) : State :=
  { engine .absorb with H := ivT, acc := 0x00616263, len := 3, pos := 3, fn := some fid }

/-- `"abcde"` absorbed: one whole word in `W`, one byte after it. -/
def abcdeAbsorbed : State :=
  { engine .absorb with
    H := ivT, W := (Vector.replicate 16 0).set 0 0x61626364, acc := 0x62636465, len := 5, pos := 5 }

/-! ### Well-formedness -/

theorem test_wellFormed_refuses_named_code_as_reserved :
    (Instr.start (.reserved 3)).WellFormed = false := by decide

theorem test_wellFormed_refuses_zero_as_reserved :
    (Instr.start (.reserved 0)).WellFormed = false := by decide

theorem test_wellFormed_accepts_first_unassigned_code :
    (Instr.start (.reserved 4)).WellFormed = true := by decide

/-! ### Decoding: words spelled from R81 to R95, opcode, reserved bits, operand -/

theorem test_decode_bind :
    decode 0b0001_00000000000000000000_10100110#32 = .command (.bind 0xA6) := by decide

theorem test_decode_start :
    decode 0b0010_0000000000000000000000000_001#32 = .command (.start .number) := by decide

theorem test_decode_push :
    decode 0b0011_000000000000_0000000101100001#32 = .command (.push 0x0161) := by decide

theorem test_decode_final : decode 0b0100_0000000000000000000000000000#32 = .command .final := by decide

theorem test_decode_pop : decode 0b0101_0000000000000000000000000000#32 = .command .pop := by decide

theorem test_decode_stat : decode 0b0110_0000000000000000000000000000#32 = .command .stat := by decide

theorem test_decode_kinds :
    (decode 0x20000000#32, decode 0x20000002#32, decode 0x20000003#32, decode 0x20000004#32) =
      (.command (.start .string), .command (.start .null), .command (.start .object),
       .command (.start (.reserved 4))) := by decide

/-- Table 2.2: one reserved bit per format. -/
theorem test_decode_reserved_bits :
    [0x10000100#32, 0x20000008#32, 0x30010100#32, 0x40000001#32, 0x50000001#32, 0x68000000#32].map decode =
      List.replicate 6 (.illegal .reservedBits) := by decide

/-- Table 2.2: opcodes 0, 7, 15. -/
theorem test_decode_reserved_opcodes :
    [0x00000000#32, 0x70000000#32, 0xF0000000#32, 0xFFFFFFFF#32].map decode =
      List.replicate 4 (.illegal .reservedOpcode) := by decide

theorem test_encode_words :
    [Instr.bind 255, .start .object, .push 0xFFFF, .final, .pop, .stat].map encode =
      [0x100000FF#32, 0x20000003#32, 0x3000FFFF#32, 0x40000000#32, 0x50000000#32, 0x60000000#32] := by decide

theorem test_opcodeTable_rows :
    opcodeTable.map OpcodeRow.mnemonic = ["BIND", "START", "PUSH", "FINAL", "POP", "STAT"] := by decide

/-- The host's entry points: the table's word, and the step that runs it. -/
theorem test_decodeTableWord : decodeTableWord 32 0x30000061 = some (.push 0x61) := by decide

theorem test_withFetchWord_runs_the_word :
    responseOf (step (State.reset.withFetchWord 32 0x60000000)) = some 0x00000000#32 := by decide

/-! ### One step of each command, 95_test_vectors.md -/

/-- Table 2.3 row 3. -/
theorem test_bind_undefined_is_fatal :
    responseOf (bindUnder cT 9 State.reset) = some 0x34030000#32 := by decide

/-- Table 2.3 row 11. -/
theorem test_bind_late_is_refused :
    responseOf (bindUnder cT 1 (engine .absorb)) = some 0x42800000#32 := by decide

/-- Table 2.3 row 14: `oi` keeps its value. -/
theorem test_start_object_aborts :
    (nextOf (startUnder cT .object { engine .done with oi := 1 })).map (fun t => (t.rsp, t.oi, t.ph)) =
      some (some 0x11810000#32, 1#5, .idle) := by decide

/-- Table 2.3 row 15. -/
theorem test_start_clears_the_latched_error :
    (nextOf (startUnder cT .string { engine .idle with lerr := .typeMismatch, acc := 7 })).map
      (fun t => (t.rsp, t.H, t.acc, t.lerr)) = some (some 0x02800000#32, ivT, 0#32, .ok) := by decide

/-- Table 2.5, the 64th `PUSH`: the slot is written before `F_mix` reads the schedule. -/
theorem test_push_completes_a_block :
    (nextOf (pushUnder cT 0x61 { engine .absorb with
        H := ivT, W := Vector.replicate 16 0x61616161, acc := 0x616161, len := 63, pos := 63, fn := some 1 })).map
      (fun t => (t.H, t.pos, t.len, t.rsp)) =
      some (#v[0x7F3AF6C1#32, 0x3B7FC3F6#32, 0x2A6EB2E5#32, 0x9E80623B#32, 0x0CC8844F#32], 0#6, 64#61,
            some 0x02800000#32) := by decide +kernel

/-- Table 2.5: `RangeError` before `LenOverflow`. -/
theorem test_push_range_before_length :
    responseOf (pushUnder cT 0x0100 { engine .absorb with len := 0x1FFFFFFFFFFFFFFF, pos := 63 }) =
      some 0x21820000#32 := by decide

/-- Program P1 with `BIND 1`, after step 7. -/
theorem test_final_abc :
    (nextOf (finalUnder cT (abcAbsorbed 1))).map (fun t => (t.H, t.acc, t.len, t.rsp)) =
      some (#v[0x5B17D4D5#32, 0x175B9FD3#32, 0x064A8EC2#32, 0x7A5C3E18#32, 0xE8A4602C#32], 0x18#32, 3#61,
            some 0x03800000#32) := by decide +kernel

/-- Table 2.4, the upper limit: `W[14]` and `W[15]` of the last block. -/
theorem test_final_longest_message :
    (nextOf (finalUnder cT { engine .absorb with len := 0x1FFFFFFFFFFFFFFF, pos := 63 })).map
      (fun t => (t.W[13], t.W[14], t.W[15], t.pos)) = some (0#32, 0xFFFFFFFF#32, 0xFFFFFFF8#32, 0#6) := by decide +kernel

/-- Program P1 step 9. -/
theorem test_pop_second_byte :
    (nextOf (execPop { engine .done with H := ivT, oi := 1 })).map (fun t => (t.rsp, t.oi)) =
      some (some 0x03800045#32, 2#5) := by decide

/-- Program P1 step 27. -/
theorem test_pop_last_byte :
    (nextOf (execPop { engine .done with H := ivT, oi := 19 })).map (fun t => (t.rsp, t.oi, t.ph)) =
      some (some 0x018000F0#32, 0#5, .idle) := by decide

/-- Table 2.3 row 17. -/
theorem test_stat_dead : responseOf (execStat (engine .dead)) = some 0x04030000#32 := by decide

/-- Table 2.8 row 10. -/
theorem test_illegal_before_dead :
    responseOf (step (present 0x00000000#32 (engine .dead))) = some 0x54030000#32 := by decide

/-- Table 2.1. -/
theorem test_codec :
    (charToByte 0xE9, charToByte 0x100, charToByte 0x161, byteToChar 0x67, byteToChar 256) =
      (some 0xE9#8, none, none, some 0x67#16, none) := by decide

/-- Table 2.4 row `L = 6`. -/
theorem test_pad_abcabc :
    pad [0x61, 0x62, 0x63, 0x61, 0x62, 0x63] =
      [0x61, 0x62, 0x63, 0x61, 0x62, 0x63, 0x80] ++ List.replicate 49 0 ++ [0, 0, 0, 0, 0, 0, 0, 0x30] := by
  decide +kernel

/-- Table 2.7 row 7. -/
theorem test_digest_one_byte :
    digest fMix ivT [0xE9] =
      [0xE3, 0x35, 0x71, 0x45, 0x17, 0x5B, 0x9F, 0xD3, 0x06, 0x4A, 0x8E, 0xC2, 0x7A, 0x5C, 0x3E, 0x18,
       0xE8, 0xA4, 0x60, 0x2C] := by decide +kernel

/-! ### Script text, R96 and R97 -/

theorem test_script_push_character :
    readLine "PUSH 'a' ; one byte".toList = some (.command (.push 0x61)) := by decide +kernel

theorem test_script_word : readLine ".word 0xFFFFFFFF".toList = some (.word 0xFFFFFFFF) := by decide +kernel

theorem test_script_digest_kind : readLine "DIGEST NULL".toList = some (.digestKind .null) := by decide +kernel

theorem test_script_refuses_wide_operand : readLine "BIND 256".toList = none := by decide +kernel

/-! ### Witnesses for the hypotheses of the obligations -/

/-- An engine with one event presented. -/
def offered (e : HostEvent) (p : Phase) : State := { engine p with inputs := [e] }

theorem inv_reset : Inv Config.platform State.reset := by
  constructor <;> simp [State.reset, operating]

theorem inv_idle (c : Config) (w : Word) : Inv c (offered (.command w) .idle) := by
  constructor <;> simp [offered, engine, State.reset, operating, fnTable]

theorem inv_absorb (c : Config) (e : HostEvent) : Inv c (offered e .absorb) := by
  constructor <;> simp [offered, engine, State.reset, operating, fnTable]

theorem inv_done (c : Config) (w : Word) (oi : BitVec 5) (h : oi.toNat ≤ 19) :
    Inv c { offered (.command w) .done with oi := oi } := by
  constructor <;> simp [offered, engine, State.reset, operating, fnTable, h]

theorem inv_dead (c : Config) (w : Word) : Inv c (offered (.command w) .dead) := by
  constructor <;> simp [offered, engine, State.reset, operating]

theorem witness_EncodedCommandsDecodeBack :
    (Instr.start (.reserved 7)).WellFormed = true ∧ (Instr.push 0xFFFF).WellFormed = true := by decide

theorem witness_DecodedWordsEncodeBack : decode 0x20000004#32 = .command (.start (.reserved 4)) := by decide

/-- Both clauses at their boundary: opcodes 0, 7 and 15. -/
theorem witness_ReservedOpcodesAreAnsweredIllegal :
    (offered (.command 0x0FFFFFFF) .idle).inputs = .command 0x0FFFFFFF :: [] ∧
    (0x0FFFFFFF#32).extractLsb' 28 4 = 0#4 ∧ 7#4 ≤ (0x70000000#32).extractLsb' 28 4 ∧
    7#4 ≤ (0xF0000000#32).extractLsb' 28 4 := by decide

/-- The lowest reserved bit of each format. -/
theorem witness_ReservedBitsAreAnsweredIllegal :
    (offered (.command 0x10000100) .idle).inputs = .command 0x10000100 :: [] ∧
    ((0x10000100#32).extractLsb' 28 4 = 1#4 ∧ (0x10000100#32).extractLsb' 8 20 ≠ 0#20) ∧
    ((0x20000008#32).extractLsb' 28 4 = 2#4 ∧ (0x20000008#32).extractLsb' 3 25 ≠ 0#25) ∧
    ((0x30010000#32).extractLsb' 28 4 = 3#4 ∧ (0x30010000#32).extractLsb' 16 12 ≠ 0#12) ∧
    ((0x40000001#32).extractLsb' 28 4 = 4#4 ∧ (0x40000001#32).extractLsb' 0 28 ≠ 0#28) ∧
    ((0x50000001#32).extractLsb' 28 4 = 5#4 ∧ (0x50000001#32).extractLsb' 0 28 ≠ 0#28) ∧
    ((0x68000000#32).extractLsb' 28 4 = 6#4 ∧ (0x68000000#32).extractLsb' 0 28 ≠ 0#28) := by decide

theorem witness_StepRunsThePresentedCommand :
    (offered (.command 0x30000061) .absorb).inputs = .command 0x30000061 :: [] ∧
    decode 0x30000061#32 = .command (.push 0x61) := by decide

theorem witness_IllegalWordsChangeNothing :
    (offered (.command 0x30010061) .absorb).inputs = .command 0x30010061 :: [] ∧
    decode 0x30010061#32 = .illegal .reservedBits := by decide

theorem witness_ResetEventUndoesConstruction : (offered .reset .dead).inputs = .reset :: [] := by decide

theorem witness_NothingPresentedNothingDone : (engine .done).inputs = [] := by decide

/-- A `START` that is accepted, and a reset event in a call. -/
theorem witness_EveryStepKeepsTheInvariant :
    (Inv Config.platform (offered (.command 0x20000000) .idle) ∧
      ∃ t, step (offered (.command 0x20000000) .idle) = .next t) ∧
    (Inv Config.platform (offered .reset .absorb) ∧ ∃ t, step (offered .reset .absorb) = .next t) :=
  ⟨⟨inv_idle _ _, _, rfl⟩, inv_absorb _ _, _, rfl⟩

theorem witness_EveryCommandIsAnswered :
    Inv Config.platform (offered (.command 0x40000000) .absorb) ∧
    (offered (.command 0x40000000) .absorb).inputs = .command 0x40000000 :: [] := ⟨inv_absorb _ _, rfl⟩

theorem witness_OutputIndexStaysInRange :
    (∀ rest, { offered (.command 0x50000000) .done with oi := 19 }.inputs ≠ .reset :: rest) ∧
    { offered (.command 0x50000000) .done with oi := 19 }.oi.toNat ≤ 19 ∧
    ∃ t, step { offered (.command 0x50000000) .done with oi := 19 } = .next t :=
  ⟨by simp [offered], by decide, _, rfl⟩

theorem witness_StartBeginsTheEmptyMessage :
    operating { engine .done with fn := some 1 }.ph ∧ boundFn cT { engine .done with fn := some 1 } = some fMix :=
  ⟨.inr (.inr rfl), rfl⟩

theorem witness_PushAppendsToTheMessage :
    boundFn cT abcdeAbsorbed = some placeholder ∧
    Absorbed placeholder cT.iv [0x61, 0x62, 0x63, 0x64, 0x65] abcdeAbsorbed ∧
    [0x61#8, 0x62, 0x63, 0x64, 0x65].length < 2 ^ 61 - 1 := by
  refine ⟨rfl, ⟨rfl, by decide, by decide, by decide, fun k hk h => ?_, by decide⟩, by decide⟩
  obtain rfl : k = 0 := by simp at h; omega
  rfl

/-- Each clause of `BIND`: dead, the three operating phases, unbound. -/
theorem witness_BindCapturesTheFunction :
    (engine .dead).ph = .dead ∧ operating (engine .idle).ph ∧ operating (engine .absorb).ph ∧
    operating (engine .done).ph ∧ State.reset.ph = .unbound ∧ State.reset.lerr = .ok :=
  ⟨rfl, .inl rfl, .inr (.inl rfl), .inr (.inr rfl), rfl, rfl⟩

theorem witness_FailedConstructionIsFinal :
    (State.reset.ph = .unbound ∧ fnTable cT 9 = none) ∧
    (offered (.command 0x10000000) .dead).ph = .dead ∧ (Instr.bind 0 ≠ .stat) ∧
    ∃ t, step (offered (.command 0x10000000) .dead) = .next t := ⟨⟨rfl, rfl⟩, rfl, by decide, _, rfl⟩

theorem witness_LateBindHasNoEffect : operating (engine .absorb).ph := .inr (.inl rfl)

theorem witness_StartInitialisesTheCall :
    State.reset.ph = .unbound ∧ (engine .dead).ph = .dead ∧ operating (engine .done).ph ∧
    Kind.reserved 4 ≠ .string ∧ (engine .done).fn ≠ none := ⟨rfl, rfl, .inr (.inr rfl), by decide, by decide⟩

/-- The lowest and the highest value of the field, and the first that is not accepted. -/
theorem witness_OnlyKindZeroIsAccepted :
    operating (offered (.command 0x20000000) .idle).ph ∧
    (offered (.command 0x20000000) .idle).inputs = .command (0x2#4 ++ 0#25 ++ 0#3) :: [] ∧
    (offered (.command 0x20000001) .idle).inputs = .command (0x2#4 ++ 0#25 ++ 1#3) :: [] ∧
    (offered (.command 0x20000007) .idle).inputs = .command (0x2#4 ++ 0#25 ++ 7#3) :: [] ∧
    (1#3 ≠ 0#3) ∧ (7#3 ≠ 0#3) := ⟨.inl rfl, by decide, by decide, by decide, by decide, by decide⟩

theorem witness_StartErasesEarlierCalls :
    operating (engine .idle).ph ∧ operating (abcAbsorbed 0).ph ∧ (engine .idle).fn = (abcAbsorbed 0).fn ∧
    (engine .idle).inputs = (abcAbsorbed 0).inputs ∧ (engine .idle).resets = (abcAbsorbed 0).resets :=
  ⟨.inl rfl, .inr (.inl rfl), rfl, rfl, rfl⟩

/-- Positions where no word, a word, and a block is completed. -/
theorem witness_FeedPacksAndCompresses :
    boundFn cT (abcAbsorbed 1) = some fMix ∧ boundFn cT { abcAbsorbed 1 with pos := 62 } = some fMix ∧
    boundFn cT { abcAbsorbed 1 with pos := 63 } = some fMix := ⟨rfl, rfl, rfl⟩

theorem witness_FeedLeavesTheRestAlone :
    (∃ t, feed cT 0x80 { abcAbsorbed 1 with pos := 63 } = .ok t) ∧
    (∃ t, feed cT 0x80 (State.reset) = .ok t) ∧ 14 ≠ (63#6).toNat / 4 := ⟨⟨_, rfl⟩, ⟨_, rfl⟩, by decide⟩

/-- The first and the last slot. -/
theorem witness_FourBytesMakeABigEndianWord :
    (boundFn cT (engine .absorb) = some placeholder ∧ (engine .absorb).pos.toNat = 4 * 0) ∧
    boundFn cT { abcAbsorbed 1 with pos := 60 } = some fMix ∧ { abcAbsorbed 1 with pos := 60 }.pos.toNat = 4 * 15 :=
  ⟨⟨rfl, rfl⟩, rfl, rfl⟩

theorem witness_ABlockIsCompressedOnceWithItsOwnSchedule :
    boundFn cT { abcAbsorbed 1 with pos := 0 } = some fMix ∧ { abcAbsorbed 1 with pos := 0 }.pos = 0 ∧
    (List.replicate 64 0x61#8).length = 64 := ⟨rfl, rfl, rfl⟩

/-- Each clause of `PUSH`, at the boundaries 255 and 256 of the symbol and `2^61 - 2`, `2^61 - 1` of `len`. -/
theorem witness_PushAbsorbsAByte :
    State.reset.ph = .unbound ∧ (engine .dead).ph = .dead ∧ (engine .idle).ph = .idle ∧ (engine .done).ph = .done ∧
    (engine .absorb).ph = .absorb ∧ 255 < (256#16).toNat ∧ (255#16).toNat ≤ 255 ∧
    { engine .absorb with len := 0x1FFFFFFFFFFFFFFF }.len.toNat = 2 ^ 61 - 1 ∧
    { engine .absorb with len := 0x1FFFFFFFFFFFFFFE }.len.toNat < 2 ^ 61 - 1 ∧
    boundFn Config.platform { engine .absorb with len := 0x1FFFFFFFFFFFFFFE } = some placeholder ∧
    (engine .absorb).fn ≠ none ∧ (engine .absorb).lerr = .ok :=
  ⟨rfl, rfl, rfl, rfl, rfl, by decide, by decide, by decide, by decide, rfl, by decide, rfl⟩

theorem witness_FinalPadsAndFrames :
    State.reset.ph = .unbound ∧ (engine .dead).ph = .dead ∧ (engine .idle).ph = .idle ∧ (engine .done).ph = .done ∧
    (abcAbsorbed 0).ph = .absorb ∧ boundFn Config.platform (abcAbsorbed 0) = some placeholder ∧
    (abcAbsorbed 0).len.toNat = 3 ∧ (abcAbsorbed 0).pos = 3 ∧ (abcAbsorbed 0).lerr = .ok :=
  ⟨rfl, rfl, rfl, rfl, rfl, rfl, rfl, rfl, rfl⟩

/-- The two clauses where they meet: 55 and 56 bytes in the block, and the ends of the range, 0 and 63. -/
theorem witness_FinalWorkByPosition :
    ∀ n ∈ [0#6, 55#6, 56#6, 63#6],
      { engine .absorb with pos := n, len := n.setWidth 61 }.ph = .absorb ∧
      boundFn Config.platform { engine .absorb with pos := n, len := n.setWidth 61 } = some placeholder ∧
      { engine .absorb with pos := n, len := n.setWidth 61 }.pos.toNat =
        { engine .absorb with pos := n, len := n.setWidth 61 }.len.toNat % 64 := by
  intro n hn
  refine ⟨rfl, rfl, ?_⟩
  revert n
  decide

theorem witness_LengthFieldEndsTheLastBlock :
    (abcAbsorbed 0).ph = .absorb ∧ boundFn Config.platform (abcAbsorbed 0) = some placeholder := ⟨rfl, rfl⟩

theorem witness_PaddedBufferShape :
    (List.replicate 56 0x61#8).length ≤ 2 ^ 61 - 1 ∧ 64 ∣ 128 ∧ (List.replicate 56 0x61#8).length + 9 ≤ 128 ∧
    (List.replicate 56 0x61#8).length + 1 ≤ 57 ∧ 57 + 9 ≤ (pad (List.replicate 56 0x61#8)).length := by decide +kernel

theorem witness_PaddingCornerCases (L : Nat) : (List.replicate L 0x61#8).length = L := List.length_replicate

/-- Each clause of `POP`: bytes 0, 18, 19. -/
theorem witness_PopReturnsTheNextByte :
    State.reset.ph = .unbound ∧ (engine .dead).ph = .dead ∧ (engine .idle).ph = .idle ∧
    (engine .absorb).ph = .absorb ∧ (engine .done).ph = .done ∧ (engine .done).oi = 0 ∧
    { engine .done with H := ivT }.H[0] = 0x67452301#32 ∧ (engine .done).fn ≠ none ∧ (engine .done).lerr = .ok ∧
    (18#5).toNat ≤ 19 ∧ ivT[(18#5).toNat / 4]? = some 0xC3D2E1F0 ∧ (19#5).toNat ≤ 19 ∧
    ivT[(19#5).toNat / 4]? = some 0xC3D2E1F0 := by decide

theorem witness_TwentyPopsReturnTheDigest :
    { engine .done with H := ivT }.ph = .done ∧ { engine .done with H := ivT }.oi = 0 ∧
    ivT[0 / 4]? = some 0x67452301 ∧ ivT[19 / 4]? = some 0xC3D2E1F0 := by decide

theorem witness_StatReadsTheStatus :
    (engine .dead).ph = .dead ∧ (engine .dead).fn = none ∧ (engine .dead).lerr = .capabilityNotBound ∧
    Instr.bind 0 ≠ .stat := by decide

/-- A `POP` in `DONE`, and a command that is not one. -/
theorem witness_ResponsesCarryTheStatus :
    (∃ t, step (offered (.command 0x50000000) .done) = .next t) ∧
    (offered (.command 0x50000000) .done).inputs = .command 0x50000000 :: [] ∧
    (decode 0x50000000#32 = .command .pop ∧ (offered (.command 0x50000000) .done).ph = .done) ∧
    (∃ t, step (offered (.command 0x60000000) .done) = .next t) ∧
    (offered (.command 0x60000000) .done).inputs = .command 0x60000000 :: [] ∧
    ¬ (decode 0x60000000#32 = .command .pop ∧ (offered (.command 0x60000000) .done).ph = .done) :=
  ⟨⟨_, rfl⟩, by decide, by decide, ⟨_, rfl⟩, by decide, by decide⟩

theorem witness_ErrorPriority :
    Inv Config.platform (offered (.command 0x30000100) .absorb) ∧
    (offered (.command 0x30000100) .absorb).inputs = .command 0x30000100 :: [] ∧
    Inv Config.platform (offered (.command 0x10000000) .dead) ∧
    (offered (.command 0x10000000) .dead).inputs = .command 0x10000000 :: [] :=
  ⟨inv_absorb _ _, rfl, inv_dead _ _, rfl⟩

/-- One command of each class: an abort, a refusal, the failed construction. -/
theorem witness_ErrorsHaveOnlyTheirClassEffects :
    (∃ t, execUnder cT (.start .null) (engine .idle) = .next t ∧ t.rsp = some 0x11810000#32 ∧
      rspCode 0x11810000#32 = Code.typeMismatch.bits) ∧
    (∃ t, execUnder cT .pop (engine .absorb) = .next t ∧ t.rsp = some 0x42800000#32 ∧
      rspCode 0x42800000#32 = Code.seqError.bits) ∧
    (∃ t, execUnder cT (.bind 9) State.reset = .next t ∧ t.rsp = some 0x34030000#32 ∧
      rspCode 0x34030000#32 = Code.capabilityNotBound.bits ∧ State.reset.ph = .unbound ∧ State.reset.fn = none) :=
  ⟨⟨_, rfl, by decide, by decide⟩, ⟨_, rfl, by decide, by decide⟩, ⟨_, rfl, by decide, by decide, rfl, rfl⟩⟩

/-- A `POP` refused in the middle of a call. -/
theorem witness_RefusedCommandsAreTransparent :
    ∃ (u : State) (r : Word), trace cT [.start .string] (engine .idle) = some ([0x02800000#32], u) ∧
      execUnder cT .pop u = .next { u with rsp := some r } := ⟨_, _, rfl, rfl⟩

/-- Each row of the table of phases, and the boundaries of its conditions. -/
theorem witness_PhaseTransitionTable :
    (Inv cT State.reset ∧ State.reset.ph = .unbound ∧ fnTable cT 1 ≠ none ∧ fnTable cT 9 = none) ∧
    (Inv cT (offered (.command 0x70000000) .idle) ∧ (offered (.command 0x70000000) .idle).ph = .idle ∧
      decode 0x70000000#32 = .illegal .reservedOpcode) ∧
    (Inv cT (offered .reset .absorb) ∧ (offered .reset .absorb).ph = .absorb ∧ (255#16).toNat ≤ 255 ∧
      (offered .reset .absorb).len.toNat ≠ 2 ^ 61 - 1 ∧ 255 < (256#16).toNat) ∧
    (Inv cT { engine .absorb with len := 0x1FFFFFFFFFFFFFFF, pos := 63 } ∧
      { engine .absorb with len := 0x1FFFFFFFFFFFFFFF, pos := 63 }.len.toNat = 2 ^ 61 - 1) ∧
    (Inv cT { offered (.command 0x50000000) .done with oi := 18 } ∧ (18#5) ≠ 19#5) ∧
    Inv cT { offered (.command 0x50000000) .done with oi := 19 } ∧
    (Inv cT (offered (.command 0x50000000) .dead) ∧ (offered (.command 0x50000000) .dead).ph = .dead) := by
  refine ⟨⟨?_, rfl, by simp [fnTable, cT], rfl⟩, ⟨inv_idle _ _, rfl, by decide⟩,
    ⟨inv_absorb _ _, rfl, by decide, by decide, by decide⟩, ⟨?_, by decide⟩, ⟨inv_done _ _ _ (by decide), by decide⟩,
    inv_done _ _ _ (by decide), inv_dead _ _, rfl⟩
  · constructor <;> simp [State.reset, operating]
  · constructor <;> simp [engine, State.reset, operating, fnTable]

theorem witness_ExcludedStatesStop :
    ({ engine .absorb with fn := none, pos := 63 }.ph = .absorb ∧ (255#16).toNat ≤ 255 ∧
      { engine .absorb with fn := none, pos := 63 }.len.toNat < 2 ^ 61 - 1 ∧
      boundFn Config.platform { engine .absorb with fn := none, pos := 63 } = none ∧
      { engine .absorb with fn := none, pos := 63 }.pos = 63#6) ∧
    { engine .done with oi := 20 }.ph = .done ∧ 19 < { engine .done with oi := 20 }.oi.toNat :=
  ⟨⟨rfl, by decide, by decide, rfl, rfl⟩, rfl, by decide⟩

/-- The one `BIND`, and the reset event. -/
theorem witness_OnlyConstructionWritesTheCapability :
    (∃ t, step (offered (.command 0x10000000) .unbound) = .next t ∧
      t.fn ≠ (offered (.command 0x10000000) .unbound).fn) ∧
    (∃ t, step (offered .reset .idle) = .next t ∧ t.fn ≠ (offered .reset .idle).fn) :=
  ⟨⟨_, rfl, by decide⟩, _, rfl, by simp [resetEvent, offered, engine]⟩

theorem witness_ModesAreLeftOnlyAsSaid :
    (∃ t, step (offered (.command 0x20000001) .done) = .next t) ∧
    (∀ rest, (offered (.command 0x20000001) .done).inputs ≠ .reset :: rest) ∧
    operating (offered (.command 0x20000001) .done).ph ∧
    (∃ t, step (offered (.command 0x20000000) .dead) = .next t) ∧
    (offered (.command 0x20000000) .dead).ph = .dead ∧
    (∃ t, step (offered (.command 0x10000000) .unbound) = .next t ∧ t.ph ≠ .unbound) :=
  ⟨⟨_, rfl⟩, by simp [offered], .inr (.inr rfl), ⟨_, rfl⟩, rfl, _, rfl, by decide⟩

/-- An abort in `IDLE`, and an accepted `START` after it. -/
theorem witness_LatchedErrorChangesOnlyAsSaid :
    (∃ t, step (offered (.command 0x20000001) .idle) = .next t ∧
      t.lerr ≠ (offered (.command 0x20000001) .idle).lerr ∧ t.rsp = some 0x11810000#32 ∧
      rspCode 0x11810000#32 = Code.typeMismatch.bits ∧
      (offered (.command 0x20000001) .idle).inputs = .command 0x20000001 :: []) ∧
    (∃ t, step (offered (.command 0x10000000) .unbound) = .next t ∧ t.rsp = some 0x01800000#32 ∧
      rspCode 0x01800000#32 = Code.ok.bits ∧ decode 0x10000000#32 = .command (.bind 0)) ∧
    (∃ t, step (offered (.command 0x40000000) .done) = .next t ∧ t.rsp = some 0x43800000#32 ∧
      rspCode 0x43800000#32 = Code.seqError.bits) ∧
    (∃ t, step { offered (.command 0x20000000) .idle with lerr := .rangeError } = .next t ∧
      t.lerr ≠ { offered (.command 0x20000000) .idle with lerr := .rangeError }.lerr) :=
  ⟨⟨_, rfl, by decide, by decide, by decide, by decide⟩, ⟨_, rfl, by decide, by decide, by decide⟩,
    ⟨_, rfl, by decide, by decide⟩, _, rfl, by decide⟩

theorem witness_CommandsWriteOnlyTheirRegisters :
    (∃ t, exec .pop { engine .done with H := ivT } = .next t) ∧ (∃ t, exec (.bind 0) State.reset = .next t) ∧
    (∃ t, exec .final (abcAbsorbed 0) = .next t) ∧ (∃ t, exec (.push 0x61) (abcAbsorbed 0) = .next t) ∧
    (∃ t, exec .stat (engine .dead) = .next t) :=
  ⟨⟨_, rfl⟩, ⟨_, rfl⟩, ⟨_, rfl⟩, ⟨_, rfl⟩, _, rfl⟩

/-- Two engines that differ in a register of no call in progress. -/
theorem witness_HiddenRegistersCannotBeSeen :
    Alike (offered (.command 0x20000000) .idle) { offered (.command 0x20000000) .idle with acc := 1, oi := 7 } ∧
    ∃ t, step (offered (.command 0x20000000) .idle) = .next t :=
  ⟨⟨rfl, rfl, rfl, rfl, by simp [inCall, offered, engine]⟩, _, rfl⟩

theorem witness_StateIsNeverExposed : (offered (.command 0x40000000) .absorb).ph ≠ .done := by decide

/-- The boundary of the range on both sides. -/
theorem witness_CodecRoundTrip :
    255 ≤ 255 ∧ 255 < 256 ∧ (255#16).toNat ≤ 255 ∧ 255 < (256#16).toNat := by decide

theorem witness_EnginesShareNothing :
    ∃ es', stepEngine 1 [engine .done, offered (.command 0x20000000) .idle] = some (.next es') ∧
      [engine .done, offered (.command 0x20000000) .idle][1]? =
        [engine .dead, offered (.command 0x20000000) .idle][1]? := ⟨_, rfl, rfl⟩

/-- The hypotheses of every statement about a whole call, for an engine with `F_mix` bound. -/
theorem witness_CallComputesTheDigest :
    operating { engine .idle with fn := some 1 }.ph ∧ boundFn cT { engine .idle with fn := some 1 } = some fMix ∧
    [0x61#8, 0x62, 0x63].length ≤ 2 ^ 61 - 1 := ⟨.inl rfl, rfl, by decide⟩

theorem witness_TheFeedStreamOfACallIsPad :
    operating { engine .done with fn := some 1 }.ph ∧ boundFn cT { engine .done with fn := some 1 } = some fMix ∧
    ([] : List Byte).length ≤ 2 ^ 61 - 1 ∧ 0 < (pad []).length := ⟨.inr (.inr rfl), rfl, by decide, by decide +kernel⟩

theorem witness_IncompleteCallsReturnNoDigest :
    (operating (engine .idle).ph ∧ Kind.number ≠ .string) ∧
    (operating { engine .idle with fn := some 1 }.ph ∧ boundFn cT { engine .idle with fn := some 1 } = some fMix ∧
      [0x61#8].length < 2 ^ 61 - 1 ∧ 255 < (0x100#16).toNat) ∧
    State.reset.ph = .unbound ∧ (engine .dead).ph = .dead :=
  ⟨⟨.inl rfl, by decide⟩, ⟨.inl rfl, rfl, by decide, by decide⟩, rfl, rfl⟩

theorem witness_CallsAreIsolated :
    operating (engine .idle).ph ∧ operating (abcAbsorbed 0).ph ∧ (engine .idle).fn = (abcAbsorbed 0).fn :=
  ⟨.inl rfl, .inr (.inl rfl), rfl⟩

theorem witness_ThePlaceholderDigestIsSerIV :
    operating (engine .idle).ph ∧ (engine .idle).fn = some 0 ∧ [0x61#8].length ≤ 2 ^ 61 - 1 :=
  ⟨.inl rfl, rfl, by decide⟩

end Sys2Proof.Tests
end

section
/-! PROOFS. The decoder of 30_encoding.md: a word is its opcode, its reserved bits and its operand; decoding and
encoding are inverse to each other on the well-formed commands. -/

namespace Sys2Proof

/-- Three adjacent fields of a word, put together again. -/
theorem extractLsb'_append_three (w : Word) (m n : Nat) :
    w.extractLsb' (n + m) 4 ++ w.extractLsb' n m ++ w.extractLsb' 0 n = w.extractLsb' 0 (4 + m + n) := by
  rw [BitVec.extractLsb'_append_extractLsb'_eq_extractLsb' rfl,
    BitVec.extractLsb'_append_extractLsb'_eq_extractLsb' (Nat.zero_add n).symm]

/-- Format B of R81: opcode, 20 reserved bits, 8 operand bits. -/
theorem formatB_fields (w : Word) : opcode w ++ w.extractLsb' 8 20 ++ w.extractLsb' 0 8 = w :=
  (extractLsb'_append_three w 20 8).trans BitVec.extractLsb'_eq_self

/-- Format K of R81: opcode, 25 reserved bits, 3 operand bits. -/
theorem formatK_fields (w : Word) : opcode w ++ w.extractLsb' 3 25 ++ w.extractLsb' 0 3 = w :=
  (extractLsb'_append_three w 25 3).trans BitVec.extractLsb'_eq_self

/-- Format S of R81: opcode, 12 reserved bits, 16 operand bits. -/
theorem formatS_fields (w : Word) : opcode w ++ w.extractLsb' 16 12 ++ w.extractLsb' 0 16 = w :=
  (extractLsb'_append_three w 12 16).trans BitVec.extractLsb'_eq_self

/-- Format N of R81: opcode and 28 reserved bits. -/
theorem formatN_fields (w : Word) : opcode w ++ w.extractLsb' 0 28 = w :=
  (BitVec.extractLsb'_append_extractLsb'_eq_extractLsb' (by rfl)).trans BitVec.extractLsb'_eq_self

/-! ### Type tags, R89 -/

@[simp] theorem Kind.code_ofCode (k : BitVec 3) : (Kind.ofCode k).code = k := by
  revert k; decide

@[simp] theorem Kind.wellFormed_ofCode (k : BitVec 3) : (Kind.ofCode k).WellFormed = true := by
  revert k; decide

theorem Kind.ofCode_code {kind : Kind} (h : kind.WellFormed = true) : Kind.ofCode kind.code = kind := by
  cases kind with
  | reserved code => revert code; decide
  | _ => rfl

theorem Kind.ofCode_injective : Function.Injective Kind.ofCode :=
  Function.LeftInverse.injective Kind.code_ofCode

theorem Kind.ofCode_eq_string_iff (k : BitVec 3) : Kind.ofCode k = .string ↔ k = 0#3 := by
  revert k; decide

/-! ### Decoding, R91 -/

theorem legalIfZero_eq_command_iff {n : Nat} (r : BitVec n) (i j : Instr) :
    legalIfZero r j = .command i ↔ r = 0#n ∧ j = i := by
  unfold legalIfZero
  split <;> simp [*]

theorem legalIfZero_of_ne {n : Nat} {r : BitVec n} (j : Instr) (h : r ≠ 0#n) :
    legalIfZero r j = .illegal .reservedBits := by
  simp [legalIfZero, h]

theorem decode_of_opcode_bind {w : Word} (h : opcode w = 0x1#4) :
    decode w = legalIfZero (w.extractLsb' 8 20) (.bind (w.extractLsb' 0 8)) := by
  simp [decode, h]

theorem decode_of_opcode_start {w : Word} (h : opcode w = 0x2#4) :
    decode w = legalIfZero (w.extractLsb' 3 25) (.start (Kind.ofCode (w.extractLsb' 0 3))) := by
  simp [decode, h]

theorem decode_of_opcode_push {w : Word} (h : opcode w = 0x3#4) :
    decode w = legalIfZero (w.extractLsb' 16 12) (.push (w.extractLsb' 0 16)) := by
  simp [decode, h]

theorem decode_of_opcode_final {w : Word} (h : opcode w = 0x4#4) :
    decode w = legalIfZero (w.extractLsb' 0 28) .final := by
  simp [decode, h]

theorem decode_of_opcode_pop {w : Word} (h : opcode w = 0x5#4) :
    decode w = legalIfZero (w.extractLsb' 0 28) .pop := by
  simp [decode, h]

theorem decode_of_opcode_stat {w : Word} (h : opcode w = 0x6#4) :
    decode w = legalIfZero (w.extractLsb' 0 28) .stat := by
  simp [decode, h]

theorem decode_of_reservedOpcode {w : Word} (h : opcode w = 0#4 ∨ 7#4 ≤ opcode w) :
    decode w = .illegal .reservedOpcode := by
  have unassigned : ∀ op : BitVec 4, op = 0#4 ∨ 7#4 ≤ op →
      op ≠ 0x1#4 ∧ op ≠ 0x2#4 ∧ op ≠ 0x3#4 ∧ op ≠ 0x4#4 ∧ op ≠ 0x5#4 ∧ op ≠ 0x6#4 := by decide
  simp [decode, unassigned _ h]

/-- R93: a 1 in a reserved bit of the format makes the word illegal. -/
theorem decode_of_reservedBits {w : Word}
    (h : opcode w = 1#4 ∧ w.extractLsb' 8 20 ≠ 0#20 ∨
      opcode w = 2#4 ∧ w.extractLsb' 3 25 ≠ 0#25 ∨
      opcode w = 3#4 ∧ w.extractLsb' 16 12 ≠ 0#12 ∨
      (opcode w = 4#4 ∨ opcode w = 5#4 ∨ opcode w = 6#4) ∧ w.extractLsb' 0 28 ≠ 0#28) :
    decode w = .illegal .reservedBits := by
  obtain ⟨hop, hr⟩ | ⟨hop, hr⟩ | ⟨hop, hr⟩ | ⟨hop | hop | hop, hr⟩ := h
  · rw [decode_of_opcode_bind hop, legalIfZero_of_ne _ hr]
  · rw [decode_of_opcode_start hop, legalIfZero_of_ne _ hr]
  · rw [decode_of_opcode_push hop, legalIfZero_of_ne _ hr]
  · rw [decode_of_opcode_final hop, legalIfZero_of_ne _ hr]
  · rw [decode_of_opcode_pop hop, legalIfZero_of_ne _ hr]
  · rw [decode_of_opcode_stat hop, legalIfZero_of_ne _ hr]

/-- R92 and R90: an opcode is reserved or one of the six. -/
theorem opcode_cases (w : Word) :
    (opcode w = 0#4 ∨ 7#4 ≤ opcode w) ∨ opcode w = 0x1#4 ∨ opcode w = 0x2#4 ∨ opcode w = 0x3#4 ∨
      opcode w = 0x4#4 ∨ opcode w = 0x5#4 ∨ opcode w = 0x6#4 := by
  generalize opcode w = op
  revert op; decide

/-- The fields of a word put together from an opcode, reserved bits and an operand. -/
theorem extractLsb'_of_append_three {m n : Nat} (o : BitVec 4) (r : BitVec m) (x : BitVec n) :
    (o ++ r ++ x).extractLsb' (n + m) 4 = o ∧ (o ++ r ++ x).extractLsb' n m = r ∧
      (o ++ r ++ x).extractLsb' 0 n = x := by
  refine ⟨?_, ?_, BitVec.extractLsb'_append_eq_right⟩
  · rw [BitVec.extractLsb'_append_eq_of_le (Nat.le_add_right n m), Nat.add_sub_cancel_left,
      BitVec.extractLsb'_append_eq_left]
  · rw [BitVec.extractLsb'_append_eq_of_le le_rfl, Nat.sub_self, BitVec.extractLsb'_append_eq_right]

/-- No bit of an encoding is dropped: 30_encoding.md sections 2 and 5. -/
theorem decode_encode {i : Instr} (h : i.WellFormed = true) : decode (encode i) = .command i := by
  cases i with
  | bind fid =>
    obtain ⟨ho, hr, hx⟩ := extractLsb'_of_append_three 0x1#4 0#20 fid
    rw [decode_of_opcode_bind (w := encode (.bind fid)) ho, legalIfZero_eq_command_iff]
    exact ⟨hr, congrArg Instr.bind hx⟩
  | start kind =>
    obtain ⟨ho, hr, hx⟩ := extractLsb'_of_append_three 0x2#4 0#25 kind.code
    rw [decode_of_opcode_start (w := encode (.start kind)) ho, legalIfZero_eq_command_iff]
    exact ⟨hr, congrArg Instr.start ((congrArg Kind.ofCode hx).trans (Kind.ofCode_code h))⟩
  | push sym =>
    obtain ⟨ho, hr, hx⟩ := extractLsb'_of_append_three 0x3#4 0#12 sym
    rw [decode_of_opcode_push (w := encode (.push sym)) ho, legalIfZero_eq_command_iff]
    exact ⟨hr, congrArg Instr.push hx⟩
  | final => rfl
  | pop => rfl
  | stat => rfl

/-- A word that decodes to a command is the command's encoding: 30_encoding.md section 5. -/
theorem wellFormed_and_encode_of_decode {w : Word} {i : Instr} (h : decode w = .command i) :
    i.WellFormed = true ∧ encode i = w := by
  obtain hop | hop | hop | hop | hop | hop | hop := opcode_cases w
  · simp [decode_of_reservedOpcode hop] at h
  · obtain ⟨hr, rfl⟩ := (legalIfZero_eq_command_iff _ _ _).mp (decode_of_opcode_bind hop ▸ h)
    exact ⟨rfl, by simpa only [encode, hop, hr] using formatB_fields w⟩
  · obtain ⟨hr, rfl⟩ := (legalIfZero_eq_command_iff _ _ _).mp (decode_of_opcode_start hop ▸ h)
    exact ⟨Kind.wellFormed_ofCode _, by simpa only [encode, Kind.code_ofCode, hop, hr] using formatK_fields w⟩
  · obtain ⟨hr, rfl⟩ := (legalIfZero_eq_command_iff _ _ _).mp (decode_of_opcode_push hop ▸ h)
    exact ⟨rfl, by simpa only [encode, hop, hr] using formatS_fields w⟩
  · obtain ⟨hr, rfl⟩ := (legalIfZero_eq_command_iff _ _ _).mp (decode_of_opcode_final hop ▸ h)
    exact ⟨rfl, by simpa only [encode, hop, hr] using formatN_fields w⟩
  · obtain ⟨hr, rfl⟩ := (legalIfZero_eq_command_iff _ _ _).mp (decode_of_opcode_pop hop ▸ h)
    exact ⟨rfl, by simpa only [encode, hop, hr] using formatN_fields w⟩
  · obtain ⟨hr, rfl⟩ := (legalIfZero_eq_command_iff _ _ _).mp (decode_of_opcode_stat hop ▸ h)
    exact ⟨rfl, by simpa only [encode, hop, hr] using formatN_fields w⟩

/-- R91: a word decodes to the command whose encoding it is. -/
theorem decode_eq_command_iff (w : Word) (i : Instr) :
    decode w = .command i ↔ i.WellFormed = true ∧ encode i = w :=
  ⟨wellFormed_and_encode_of_decode, by rintro ⟨h, rfl⟩; exact decode_encode h⟩

end Sys2Proof
end

section
/-! PROOFS. The opcode map of R90 by match and mask. -/

namespace Sys2Proof

/-- A mask that covers the opcode and the reserved bits tests for these two fields, whatever the operand is. -/
theorem append_and_mask_eq_iff {m n : Nat} (o op : BitVec 4) (r : BitVec m) (x : BitVec n) :
    (op ++ r ++ x) &&& (BitVec.allOnes 4 ++ BitVec.allOnes m ++ 0#n) = o ++ 0#m ++ 0#n ↔
      o ++ 0#m ++ x = op ++ r ++ x := by
  simp only [BitVec.and_append, BitVec.and_allOnes, BitVec.and_zero, BitVec.append_left_inj]
  exact eq_comm

/-- Format N has no operand: the mask covers the whole word. -/
theorem and_full_mask_eq_iff (w v : Word) : w &&& 0xFFFFFFFF#32 = v ↔ v = w := by
  rw [show 0xFFFFFFFF#32 = BitVec.allOnes 32 from rfl, BitVec.and_allOnes]
  exact eq_comm

theorem formatB_match_iff (w : Word) :
    w &&& 0xFFFFFF00#32 = 0x10000000#32 ↔ decode w = .command (.bind (w.extractLsb' 0 8)) := by
  have hmask := append_and_mask_eq_iff 1#4 (opcode w) (w.extractLsb' 8 20) (w.extractLsb' 0 8)
  rw [formatB_fields] at hmask
  simpa [decode_eq_command_iff, Instr.WellFormed, encode] using hmask

theorem formatK_match_iff (w : Word) :
    w &&& 0xFFFFFFF8#32 = 0x20000000#32 ↔ decode w = .command (.start (Kind.ofCode (w.extractLsb' 0 3))) := by
  have hmask := append_and_mask_eq_iff 2#4 (opcode w) (w.extractLsb' 3 25) (w.extractLsb' 0 3)
  rw [formatK_fields] at hmask
  simpa [decode_eq_command_iff, Instr.WellFormed, encode] using hmask

theorem formatS_match_iff (w : Word) :
    w &&& 0xFFFF0000#32 = 0x30000000#32 ↔ decode w = .command (.push (w.extractLsb' 0 16)) := by
  have hmask := append_and_mask_eq_iff 3#4 (opcode w) (w.extractLsb' 16 12) (w.extractLsb' 0 16)
  rw [formatS_fields] at hmask
  simpa [decode_eq_command_iff, Instr.WellFormed, encode] using hmask

theorem formatN_match_iff (w : Word) (i : Instr) (hw : i.WellFormed = true) :
    w &&& 0xFFFFFFFF#32 = encode i ↔ decode w = .command i := by
  rw [decode_eq_command_iff, and_full_mask_eq_iff, and_iff_right hw]

/-- Settles O3: each row by the fields of its format; opcode 0 is reserved. -/
theorem wordsSpellCommandsByMatchAndMask : Obligations.WordsSpellCommandsByMatchAndMask :=
  ⟨fun w => ⟨formatB_match_iff w, formatK_match_iff w, formatS_match_iff w, formatN_match_iff w .final rfl,
    formatN_match_iff w .pop rfl, formatN_match_iff w .stat rfl⟩,
   fun i => by simp [decode_of_reservedOpcode (w := 0#32) (.inl rfl)]⟩

end Sys2Proof
end

section
/-! PROOFS. The counts of R93: a family of commands is spelled by as many words as it has members. -/

namespace Sys2Proof

theorem encode_inj_of_wellFormed {i j : Instr} (hi : i.WellFormed = true) (hj : j.WellFormed = true)
    (h : encode i = encode j) : i = j := by
  simpa [h, decode_encode hj, eq_comm] using decode_encode hi

/-- A family of distinct commands is spelled by as many words as it has members. -/
theorem card_words_of_family {α : Type} (f : α → Instr) (hf : Function.Injective f)
    (hw : ∀ a, (f a).WellFormed = true) :
    Nat.card { w : Word // ∃ a, decode w = .command (f a) } = Nat.card α := by
  have hinj : Function.Injective fun a => encode (f a) := fun a b h => hf (encode_inj_of_wellFormed (hw a) (hw b) h)
  rw [← Nat.card_range_of_injective hinj]
  simp only [decode_eq_command_iff, hw, true_and]
  rfl

theorem card_words_of_command (i : Instr) (hw : i.WellFormed = true) :
    Nat.card { w : Word // decode w = .command i } = 1 := by
  simp [decode_eq_command_iff, hw]

theorem card_bitVec (n : Nat) : Nat.card (BitVec n) = 2 ^ n := by
  rw [Nat.card_congr BitVec.equivFin.toEquiv, Nat.card_fin]

/-- The operands of the well-formed commands, by format: B, K and S, and the three commands of format N. -/
abbrev Operands := BitVec 8 ⊕ BitVec 3 ⊕ BitVec 16 ⊕ Fin 3

/-- The command with given operands. -/
def commandOf : Operands → Instr
  | .inl fid => .bind fid
  | .inr (.inl k) => .start (Kind.ofCode k)
  | .inr (.inr (.inl sym)) => .push sym
  | .inr (.inr (.inr 0)) => .final
  | .inr (.inr (.inr 1)) => .pop
  | .inr (.inr (.inr 2)) => .stat

/-- The operands of a command. -/
def operandsOf : Instr → Operands
  | .bind fid => .inl fid
  | .start kind => .inr (.inl kind.code)
  | .push sym => .inr (.inr (.inl sym))
  | .final => .inr (.inr (.inr 0))
  | .pop => .inr (.inr (.inr 1))
  | .stat => .inr (.inr (.inr 2))

theorem operandsOf_commandOf : Function.LeftInverse operandsOf commandOf
  | .inl _ | .inr (.inr (.inl _)) => rfl
  | .inr (.inl k) => by simp [commandOf, operandsOf]
  | .inr (.inr (.inr 0)) | .inr (.inr (.inr 1)) | .inr (.inr (.inr 2)) => rfl

theorem commandOf_operandsOf {i : Instr} (h : i.WellFormed = true) : commandOf (operandsOf i) = i := by
  cases i with
  | start kind => exact congrArg Instr.start (Kind.ofCode_code h)
  | _ => rfl

theorem wellFormed_commandOf : ∀ o : Operands, (commandOf o).WellFormed = true
  | .inl _ | .inr (.inr (.inl _)) => rfl
  | .inr (.inl k) => Kind.wellFormed_ofCode k
  | .inr (.inr (.inr 0)) | .inr (.inr (.inr 1)) | .inr (.inr (.inr 2)) => rfl

theorem card_operands : Nat.card Operands = 65803 := by
  simp only [Operands, Nat.card_sum, card_bitVec, Nat.card_fin]
  norm_num

theorem card_legal_words : Nat.card { w : Word // ∃ i, decode w = .command i } = 65803 := by
  rw [← card_operands, ← card_words_of_family commandOf operandsOf_commandOf.injective wellFormed_commandOf]
  refine Nat.card_congr (Equiv.subtypeEquivRight fun w => ⟨fun ⟨i, hi⟩ => ⟨operandsOf i, ?_⟩, fun ⟨o, ho⟩ => ⟨_, ho⟩⟩)
  rw [commandOf_operandsOf (wellFormed_and_encode_of_decode hi).1, hi]

theorem card_bind_words : Nat.card { w : Word // ∃ fid, decode w = .command (.bind fid) } = 256 := by
  rw [card_words_of_family Instr.bind (fun _ _ => Instr.bind.inj) fun _ => rfl, card_bitVec]
  norm_num

theorem card_push_words : Nat.card { w : Word // ∃ sym, decode w = .command (.push sym) } = 65536 := by
  rw [card_words_of_family Instr.push (fun _ _ => Instr.push.inj) fun _ => rfl, card_bitVec]
  norm_num

theorem card_start_words : Nat.card { w : Word // ∃ kind, decode w = .command (.start kind) } = 8 := by
  rw [show 8 = Nat.card (BitVec 3) from (card_bitVec 3).symm, ← card_words_of_family (fun k => .start (Kind.ofCode k))
    (fun _ _ h => Kind.ofCode_injective (Instr.start.inj h)) Kind.wellFormed_ofCode]
  refine Nat.card_congr (Equiv.subtypeEquivRight fun w => ⟨fun ⟨kind, hk⟩ => ⟨kind.code, ?_⟩, fun ⟨_, hk⟩ => ⟨_, hk⟩⟩)
  rw [Kind.ofCode_code (wellFormed_and_encode_of_decode hk).1, hk]

end Sys2Proof
end

section
/-! PROOFS. What a step answers: illegal words (R92, R93, R206), the kinds of `START` (R89), and the fields of every
response (R86, R87). -/

namespace Sys2Proof.Machine

/-! ### The step on a command word -/

/-- R206: an illegal word leaves the port, is answered `IllegalCmd` and changes nothing else. -/
theorem step_of_illegal {s : State} {w : Word} {rest : List HostEvent} {why : IllegalReason}
    (h : s.inputs = .command w :: rest) (hd : decode w = .illegal why) :
    step s = .next { s with inputs := rest, rsp := some (responseWord .illegalCmd 0 s) } := by
  simp only [step, nextEvent_cons s _ _ h, runWord, hd]
  rfl

/-- R80: a legal word is executed once it has left the port. -/
theorem step_of_command {s : State} {w : Word} {rest : List HostEvent} {i : Instr}
    (h : s.inputs = .command w :: rest) (hd : decode w = .command i) :
    step s = execUnder Config.platform i { s with inputs := rest } := by
  simp only [step, nextEvent_cons s _ _ h, runWord, hd, exec_eq_execUnder]

/-- Settles O4: a reserved opcode decodes to an illegal word. -/
theorem reservedOpcodesAreAnsweredIllegal : Obligations.ReservedOpcodesAreAnsweredIllegal :=
  fun _ _ _ hs hop => step_of_illegal hs (decode_of_reservedOpcode hop)

/-- Settles O5: a reserved bit decodes to an illegal word, and the legal words are counted by their operands. -/
theorem reservedBitsAreAnsweredIllegal : Obligations.ReservedBitsAreAnsweredIllegal :=
  ⟨fun _ _ _ hs hr => step_of_illegal hs (decode_of_reservedBits hr), card_bind_words, card_start_words,
    card_push_words, card_words_of_command .final rfl, card_words_of_command .pop rfl,
    card_words_of_command .stat rfl, card_legal_words⟩

/-! ### `START` by its kind -/

/-- An operating phase admits `START`, so only its kind decides (R88, R124). -/
theorem startUnder_of_operating (c : Config) (kind : Kind) {s : State} (hp : operating s.ph) :
    startUnder c kind s =
      .next (if kind = .string then (s.beginCall c.iv).respond .ok 0 else takeError .abort .typeMismatch s) := by
  obtain ⟨e, ha, -⟩ | ⟨-, hk, h⟩ | ⟨-, hk, h⟩ := startUnder_cases c kind s
  · have hadm : admission startAdmitted s = none :=
      (admission_eq_none_iff _ _).mpr ⟨hp, by rcases hp with hp | hp | hp <;> simp [hp, startAdmitted]⟩
    simp [hadm] at ha
  · rw [h, if_neg hk]
  · rw [h, if_pos hk]

theorem decode_start_word (k : BitVec 3) :
    decode (0x2#4 ++ 0#25 ++ k) = .command (.start (Kind.ofCode k)) := by
  rw [decode_eq_command_iff, encode, Kind.code_ofCode]
  exact ⟨Kind.wellFormed_ofCode k, rfl⟩

/-- Settles O23: the word decodes to `START` of the field's kind, which is `STRING` for the field 0 alone. -/
theorem onlyKindZeroIsAccepted : Obligations.OnlyKindZeroIsAccepted := by
  intro k s rest hp hs
  have h := (step_of_command hs (decode_start_word k)).trans (startUnder_of_operating _ _ hp)
  simp only [Kind.ofCode_eq_string_iff] at h
  by_cases hk : k = 0#3
  · rw [if_pos hk] at h
    exact ⟨_, _, h, rfl, fun _ => ⟨rfl, rfl, rspCode_responseWord _ _ _⟩, fun hn => absurd hk hn⟩
  · rw [if_neg hk] at h
    exact ⟨_, _, h, rfl, fun hn => absurd hn hk, fun _ => ⟨rfl, rfl, rspCode_responseWord _ _ _⟩⟩

/-! ### The fields of every response -/

/-- The answer of R87 to a `POP` in `DONE`: success, with the digest byte at `oi` as data. -/
def DigestAnswer (H : DigestWords) (oi : BitVec 5) (e : Code) (d : Sym) : Prop :=
  e = .ok ∧ ∃ b, digestByteAt H oi = some b ∧ d = BitVec.ofNat 16 b ∧ b ≤ 255

theorem setWidth_ofNat_byte {b : Nat} (h : b ≤ 255) : (BitVec.ofNat 8 b).setWidth 16 = BitVec.ofNat 16 b := by
  apply BitVec.eq_of_toNat_eq
  simp only [BitVec.toNat_setWidth, BitVec.toNat_ofNat]
  omega

/-- A command that does not stop the model ends in `respond` (R86), with data in the answer to `POP` alone (R87). -/
theorem execUnder_answer {c : Config} {i : Instr} {s t : State} (h : execUnder c i s = .next t) :
    ∃ (u : State) (e : Code) (d : Sym), t = u.respond e d ∧
      (¬ (i = .pop ∧ s.ph = .done) → d = 0) ∧ (i = .pop → s.ph = .done → DigestAnswer s.H s.oi e d) := by
  have ho := execUnder_outcome c i s
  rw [h] at ho
  cases ho with
  | status hi => exact ⟨_, _, _, rfl, fun _ => rfl, by simp [hi]⟩
  | unbound _ hp => exact ⟨_, _, _, rfl, fun _ => rfl, by rcases hp with hp | hp <;> simp [hp]⟩
  | sequence _ _ _ _ hd => exact ⟨_, _, _, rfl, fun _ => rfl, fun hi hp => absurd hp (hd hi)⟩
  | aborted e he =>
    refine ⟨_, _, _, rfl, fun _ => rfl, ?_⟩
    obtain ⟨-, -, kind, rfl, -⟩ | ⟨-, -, sym, rfl, -⟩ | ⟨-, -, -, sym, rfl, -⟩ := he <;> exact nofun
  | died fid hi => exact ⟨_, _, _, rfl, fun _ => rfl, by simp [hi]⟩
  | constructed fid hi => exact ⟨_, _, _, rfl, fun _ => rfl, by simp [hi]⟩
  | started hi => exact ⟨_, _, _, rfl, fun _ => rfl, by simp [hi]⟩
  | absorbed sym u hi => exact ⟨_, _, _, rfl, fun _ => rfl, by simp [hi]⟩
  | padded u hi => exact ⟨_, _, _, rfl, fun _ => rfl, by simp [hi]⟩
  | popped b hi hp hb hle =>
    exact ⟨_, _, _, rfl, fun hn => absurd ⟨hi, hp⟩ hn, fun _ _ => ⟨rfl, b, hb, setWidth_ofNat_byte hle, hle⟩⟩

/-- What a step answers a command word with, legal or not. -/
theorem step_answer {s t : State} {w : Word} {rest : List HostEvent} (hs : s.inputs = .command w :: rest)
    (ht : step s = .next t) :
    ∃ (u : State) (e : Code) (d : Sym), t = u.respond e d ∧
      (¬ (decode w = .command .pop ∧ s.ph = .done) → d = 0) ∧
      (decode w = .command .pop → s.ph = .done → DigestAnswer s.H s.oi e d) := by
  cases hd : decode w with
  | illegal why =>
    rw [step_of_illegal hs hd] at ht
    cases ht
    exact ⟨{ s with inputs := rest }, .illegalCmd, 0, rfl, fun _ => rfl, nofun⟩
  | command i =>
    rw [step_of_command hs hd] at ht
    simpa only [Decoded.command.injEq] using execUnder_answer ht

/-- Settles O38: every answer is a `respond` in the state after the command, and its fields read back. -/
theorem responsesCarryTheStatus : Obligations.ResponsesCarryTheStatus := by
  intro s t w rest hs ht
  obtain ⟨u, e, d, rfl, hzero, hpop⟩ := step_answer hs ht
  refine ⟨responseWord e d u, e, rfl, rspCode_responseWord e d u, rspPhase_responseWord e d u,
    rspBound_responseWord e d u, rspZero_responseWord e d u, rspLerr_responseWord e d u, ?_, ?_⟩
  · rwa [rspData_responseWord]
  · rw [rspCode_responseWord, rspData_responseWord]
    intro hw hp
    obtain ⟨rfl, hb⟩ := hpop hw hp
    exact ⟨rfl, hb⟩

end Sys2Proof.Machine
end

section
/-! PROOFS. The Byte Codec (R110, R112): each function accepts exactly the codes up to 255 and keeps their value, so
the two are inverse to each other (R114). -/

namespace Sys2Proof.Machine

/-- R112: accepted exactly for numbers up to 255, which the symbol has as its code. -/
theorem byteToChar_eq_some_iff (b : Nat) (sym : Sym) : byteToChar b = some sym ↔ b ≤ 255 ∧ sym = BitVec.ofNat 16 b := by
  unfold byteToChar
  split
  case isTrue h => simp [Nat.not_le.mpr h]
  case isFalse h =>
    have hb : b ≤ 255 := Nat.not_lt.mp h
    rw [setWidth_ofNat_byte hb, Option.some.injEq, eq_comm, and_iff_right hb]

theorem byteToChar_eq_none_iff (b : Nat) : byteToChar b = none ↔ 255 < b := by
  simp [byteToChar]

/-- R110: a code in range is its own low byte, so nothing is cut off. -/
theorem toNat_lowByte_of_le {sym : Sym} (h : sym.toNat ≤ 255) : (sym.extractLsb' 0 8).toNat = sym.toNat := by
  rw [BitVec.extractLsb'_toNat, Nat.shiftRight_zero]
  exact Nat.mod_eq_of_lt (Nat.lt_succ_of_le h)

theorem byteToChar_of_charToByte {sym : Sym} (h : sym.toNat ≤ 255) :
    (charToByte sym).bind (fun b => byteToChar b.toNat) = some sym := by
  have hbyte : charToByte sym = some (sym.extractLsb' 0 8) := (charToByte_eq_some_iff sym _).mpr ⟨h, rfl⟩
  rw [hbyte, Option.bind_some, toNat_lowByte_of_le h, byteToChar_eq_some_iff]
  exact ⟨h, by rw [BitVec.ofNat_toNat, BitVec.setWidth_eq]⟩

/-- Settles O50: both round trips, and the range check of each function. -/
theorem codecRoundTrip : Obligations.CodecRoundTrip :=
  ⟨generated_through_codec, fun _ => byteToChar_of_charToByte, fun sym => (charToByte_eq_none_iff sym).mpr,
    fun b => (byteToChar_eq_none_iff b).mpr⟩

end Sys2Proof.Machine
end

section
/-! PROOFS. `BIND`, `START` and `STAT` in every phase (R120, R121, R124, R128). -/

namespace Sys2Proof.Machine

/-! ### Refusals -/

/-- The phases of each command that goes through the admission check of R209; `BIND` and `STAT` do not. -/
def admittedBy : Instr → Option (Phase → Bool)
  | .start _ => some startAdmitted
  | .push _ => some absorbAdmitted
  | .final => some absorbAdmitted
  | .pop => some doneAdmitted
  | .bind _ => none
  | .stat => none

theorem refusedWith_iff (c : Config) (i : Instr) (s : State) (e : Code) :
    refusedWith c i s e ↔ execUnder c i s = .next (takeError .refusal e s) := Iff.rfl

/-- A command that admission turns away is refused with admission's code, and does nothing (R209, R212). -/
theorem refusedWith_of_admission (c : Config) {i : Instr} {p : Phase → Bool} {s : State} {e : Code}
    (hi : admittedBy i = some p) (ha : admission p s = some e) : refusedWith c i s e := by
  cases i with
  | bind | stat => cases hi
  | start | push | final | pop =>
    cases hi
    simp only [refusedWith_iff, execUnder, startUnder, pushUnder, finalUnder, execPop, ha]

/-- R209, step 5: an operating phase in which the command has no place refuses it with `SeqError`. -/
theorem refusedWith_seqError (c : Config) {i : Instr} {p : Phase → Bool} {s : State}
    (hi : admittedBy i = some p) (hop : operating s.ph) (hp : p s.ph = false) : refusedWith c i s .seqError :=
  refusedWith_of_admission c hi ((admission_eq_some_iff p s _).mpr (.inr ⟨rfl, hop, hp⟩))

/-- R122: an engine already constructed refuses every `BIND`. -/
theorem refusedWith_bind_of_operating (c : Config) (fid : BitVec 8) {s : State} (hop : operating s.ph) :
    refusedWith c (.bind fid) s .seqError := by
  obtain hp | hp | hp := hop <;> simp only [refusedWith_iff, execUnder, bindUnder, hp]

/-- R121, R209: an engine without a capability refuses every command but `STAT` and the first `BIND`. -/
theorem refusedWith_capabilityNotBound (c : Config) {i : Instr} {s : State} (hp : s.ph = .unbound ∨ s.ph = .dead)
    (hi : i ≠ .stat) (hb : s.ph = .dead ∨ ∀ fid, i ≠ .bind fid) : refusedWith c i s .capabilityNotBound := by
  have ha (p : Phase → Bool) : admission p s = some .capabilityNotBound :=
    (admission_eq_some_iff p s _).mpr (.inl ⟨rfl, hp⟩)
  cases i with
  | stat => exact absurd rfl hi
  | bind fid =>
    have hd : s.ph = .dead := hb.resolve_right fun h => h fid rfl
    simp only [refusedWith_iff, execUnder, bindUnder, hd]
  | start | push | final | pop => exact refusedWith_of_admission c rfl (ha _)

theorem refusedWith_of_dead (c : Config) {i : Instr} {s : State} (hp : s.ph = .dead) (hi : i ≠ .stat) :
    refusedWith c i s .capabilityNotBound :=
  refusedWith_capabilityNotBound c (.inr hp) hi (.inl hp)

/-- R128: `STAT` has the effects of a refusal, none, under the code OK. -/
theorem refusedWith_stat (c : Config) (s : State) : refusedWith c .stat s .ok := rfl

/-- R121: no command has an effect in `DEAD`. -/
theorem exists_refusedWith_of_dead (c : Config) (i : Instr) {s : State} (hp : s.ph = .dead) :
    ∃ e, refusedWith c i s e := by
  by_cases hi : i = .stat
  · exact ⟨.ok, hi ▸ refusedWith_stat c s⟩
  · exact ⟨.capabilityNotBound, refusedWith_of_dead c hp hi⟩

/-! ### The construction -/

theorem execUnder_bind_defined {c : Config} {fid : BitVec 8} {s : State} (hp : s.ph = .unbound)
    (hf : fnTable c fid ≠ none) : execUnder c (.bind fid) s = .next ((s.captureFn fid).respond .ok 0) := by
  obtain ⟨F, hF⟩ := Option.ne_none_iff_exists'.mp hf
  simp only [execUnder, bindUnder, hp, hF]

theorem execUnder_bind_undefined {c : Config} {fid : BitVec 8} {s : State} (hp : s.ph = .unbound)
    (hf : fnTable c fid = none) :
    execUnder c (.bind fid) s = .next (takeError .fatal .capabilityNotBound s) := by
  simp only [execUnder, bindUnder, hp, hf]

theorem fnTable_zero_ne_none (c : Config) : fnTable c 0 ≠ none := nofun

/-- The response depends on the phase, on whether a function is bound, and on the latched error alone (R31, R86). -/
theorem responseWord_eq {e : Code} {d : Sym} {s : State} {p : Phase} {b : Bool} {l : Code} (hp : s.ph = p)
    (hb : s.fn.isSome = b) (hl : s.lerr = l) :
    responseWord e d s = e.bits ++ (p.bits ++ BitVec.ofBool b ++ 0#3 ++ l.bits) ++ d := by
  rw [responseWord, State.status, State.bound, hp, hb, hl]

/-- Settles O19: `BIND` by phase and, in `UNBOUND`, by its entry in the table. -/
theorem bindCapturesTheFunction : Obligations.BindCapturesTheFunction := by
  intro fid s
  simp only [exec_eq_execUnder]
  refine ⟨fun hp => refusedWith_of_dead _ hp nofun, refusedWith_bind_of_operating _ fid, fun hp => ?_,
    fnTable_zero_ne_none _, fun hp hl => ?_⟩
  · cases hf : fnTable Config.platform fid with
    | some F => exact execUnder_bind_defined hp (by simp [hf])
    | none => exact execUnder_bind_undefined hp hf
  · refine ⟨_, execUnder_bind_defined hp (fnTable_zero_ne_none _), ?_⟩
    rw [State.respond_rsp, responseWord_eq (b := true) (s.captureFn_ph 0) rfl hl]
    rfl

/-- R121: a step in `DEAD` stays there, unless it is the reset event. -/
theorem step_of_dead {s t : State} (hp : s.ph = .dead) (ht : step s = .next t) :
    t.ph = .dead ∨ (t.ph = .unbound ∧ ∃ rest, s.inputs = .reset :: rest) := by
  obtain ⟨-, h⟩ | ⟨rest, hs, h⟩ | ⟨w, rest, why, -, -, h⟩ | ⟨w, rest, i, -, -, h⟩ := step_cases s
  all_goals rw [h] at ht
  · cases ht
    exact .inl hp
  · cases ht
    exact .inr ⟨rfl, rest, hs⟩
  · cases ht
    exact .inl hp
  · obtain ⟨e, he⟩ := exists_refusedWith_of_dead Config.platform i (s := { s with inputs := rest }) hp
    cases he.symm.trans ht
    exact .inl hp

/-- Settles O20: `BIND` of no function ends in `DEAD`, where every command is without effect. -/
theorem failedConstructionIsFinal : Obligations.FailedConstructionIsFinal :=
  ⟨fun _ _ _ hp hf => ⟨_, execUnder_bind_undefined hp hf, rfl⟩,
    fun c _ s hp => ⟨refusedWith_of_dead c hp, fun hi => hi ▸ refusedWith_stat c s⟩, fun _ _ => step_of_dead⟩

/-! ### `START` -/

theorem abortedWith_start (c : Config) {kind : Kind} {s : State} (hop : operating s.ph) (hk : kind ≠ .string) :
    abortedWith c (.start kind) s .typeMismatch :=
  (startUnder_of_operating c kind hop).trans (by rw [if_neg hk]; rfl)

theorem execUnder_start_string (c : Config) {s : State} (hop : operating s.ph) :
    execUnder c (.start .string) s = .next ((s.beginCall c.iv).respond .ok 0) :=
  startUnder_of_operating c .string hop

/-- Settles O22: without a capability `START` is refused; otherwise its kind decides. -/
theorem startInitialisesTheCall : Obligations.StartInitialisesTheCall := by
  intro kind s
  simp only [exec_eq_execUnder]
  refine ⟨fun hp => refusedWith_capabilityNotBound _ hp nofun (.inr nofun), abortedWith_start _,
    fun hop hk => ?_, fun hop hf => ⟨_, execUnder_start_string _ hop, ?_⟩⟩
  · rw [hk]
    exact execUnder_start_string _ hop
  · have hb : (s.beginCall Config.platform.iv).fn.isSome = true := Option.isSome_iff_ne_none.mpr hf
    rw [State.respond_rsp, responseWord_eq (s.beginCall_ph _) hb (s.beginCall_lerr _)]
    rfl

/-! ### `STAT` -/

/-- Settles O37: `STAT` only responds; in `DEAD` every other command is refused. -/
theorem statReadsTheStatus : Obligations.StatReadsTheStatus := by
  refine ⟨fun _ => rfl, fun i s hi hp => ?_, by decide, fun s hp hf hl => ?_⟩
  · rw [exec_eq_execUnder]
    refine ⟨_, _, refusedWith_of_dead _ hp hi, rfl, ?_⟩
    rw [rspCode_responseWord]
    decide
  · rw [responseWord_eq hp (congrArg Option.isSome hf) hl]
    rfl

end Sys2Proof.Machine
end

section
/-! PROOFS. What a command answers does not depend on the response port, so a command without effect can stand in a
sequence without changing what follows (R122, R212). -/

namespace Sys2Proof.Machine

/-! ### The operations on an engine whose response port is cleared -/

theorem packByte_silent (b : Byte) (s : State) : packByte b s.silent = (packByte b s).silent := by
  rw [packByte, packByte, State.silent_pos]
  split <;> rfl

theorem compress_silent (c : Config) (s : State) : compress c s.silent = (compress c s).map State.silent := by
  rw [compress, compress, boundFn_congr c s.silent_fn]
  split <;> rfl

theorem feed_silent (c : Config) (b : Byte) (s : State) : feed c b s.silent = (feed c b s).map State.silent := by
  simp only [feed, packByte_silent, State.silent_pos, compress_silent]
  split
  · cases compress c (packByte b s) <;> rfl
  · rfl

theorem feedAll_silent (c : Config) (p : List Byte) (s : State) :
    feedAll c p s.silent = (feedAll c p s).map State.silent := by
  induction p generalizing s with
  | nil => rfl
  | cons b p ih =>
    simp only [feedAll, feed_silent]
    cases feed c b s with
    | error e => rfl
    | ok t => exact ih t

/-! ### The commands -/

theorem admission_silent (p : Phase → Bool) (s : State) : admission p s.silent = admission p s := rfl

theorem takeError_silent (cls : ErrorClass) (e : Code) (s : State) :
    takeError cls e s.silent = takeError cls e s := by
  cases cls <;> rfl

theorem respond_silent (e : Code) (d : Sym) (s : State) : s.silent.respond e d = s.respond e d := rfl

theorem bindUnder_silent (c : Config) (fid : BitVec 8) (s : State) : bindUnder c fid s.silent = bindUnder c fid s := by
  simp only [bindUnder, State.silent_ph, takeError_silent]
  rfl

theorem startUnder_silent (c : Config) (kind : Kind) (s : State) :
    startUnder c kind s.silent = startUnder c kind s := by
  simp only [startUnder, admission_silent, takeError_silent]
  cases kindIsString kind <;> rfl

theorem pushUnder_silent (c : Config) (sym : Sym) (s : State) : pushUnder c sym s.silent = pushUnder c sym s := by
  simp only [pushUnder, pushBody, admission_silent, takeError_silent, State.silent_len, feed_silent]
  cases charToByte sym with
  | none => rfl
  | some b =>
    by_cases hl : s.len = maxLen
    · simp only [if_pos hl]
      rfl
    · simp only [if_neg hl]
      obtain ⟨F, -, hF⟩ | ⟨-, -, hF⟩ | ⟨-, -, hF⟩ := feed_cases c b s <;> rw [hF] <;> rfl

theorem finalUnder_silent (c : Config) (s : State) : finalUnder c s.silent = finalUnder c s := by
  simp only [finalUnder, admission_silent, takeError_silent, finalBody_eq, State.silent_pos, State.silent_len,
    feedAll_silent]
  cases hf : feedAll c (finalStream s.pos s.len) s with
  | ok t => rfl
  | error e =>
    obtain ⟨rfl, -⟩ := feedAll_error c _ s e hf
    rfl

theorem consumeByte_silent (s : State) : s.silent.consumeByte = s.consumeByte.silent := by
  rw [State.consumeByte, State.consumeByte, apply_ite State.silent]
  rfl

theorem execPop_silent (s : State) : execPop s.silent = execPop s := by
  simp only [execPop, admission_silent, takeError_silent, consumeByte_silent, respond_silent, State.silent_H,
    State.silent_oi]

/-- No command reads the response port (R80): clearing it first changes nothing. -/
theorem execUnder_silent (c : Config) (i : Instr) (s : State) : execUnder c i s.silent = execUnder c i s := by
  cases i with
  | bind fid => exact bindUnder_silent c fid s
  | start kind => exact startUnder_silent c kind s
  | push sym => exact pushUnder_silent c sym s
  | final => exact finalUnder_silent c s
  | pop => exact execPop_silent s
  | stat => rfl

theorem trace_cons_silent (c : Config) (i : Instr) (is : List Instr) (s : State) :
    trace c (i :: is) s.silent = trace c (i :: is) s := by
  simp only [trace, execUnder_silent]

/-- R212: a command that only responds leaves the commands after it their responses and their end state. -/
theorem trace_cons_of_refused (c : Config) {i : Instr} {s : State} {r : Word}
    (h : execUnder c i s = .next { s with rsp := some r }) (j : Instr) (is : List Instr) :
    trace c (i :: j :: is) s = (trace c (j :: is) s).map fun (rs, u) => (r :: rs, u) := by
  have hj : trace c (j :: is) { s with rsp := some r } = trace c (j :: is) s := by
    rw [← trace_cons_silent c j is s, ← trace_cons_silent]
    rfl
  rw [trace, h, ← hj]
  rfl

/-- Settles O21: a `BIND` after construction only responds. -/
theorem lateBindHasNoEffect : Obligations.LateBindHasNoEffect := by
  intro c fid s hop
  have h := refusedWith_bind_of_operating c fid hop
  exact ⟨h, trace_cons_of_refused c h⟩

end Sys2Proof.Machine
end

section
/-! PROOFS. The phase transition table of R129, row by row. -/

namespace Sys2Proof.Machine

/-! ### Commands that are accepted -/

theorem acceptedInto_of_respond {c : Config} {i : Instr} {s t : State} {d : Sym} {p : Phase}
    (h : execUnder c i s = .next (t.respond .ok d)) (hp : t.ph = p) : acceptedInto c i s p :=
  ⟨_, _, h, rfl, rspCode_responseWord .ok d t, hp⟩

theorem acceptedInto_start (c : Config) {s : State} (hop : operating s.ph) :
    acceptedInto c (.start .string) s .absorb :=
  acceptedInto_of_respond (execUnder_start_string c hop) rfl

/-- R38 (c), R35: a constructed engine has a function bound. -/
theorem Inv.boundFn_eq_some {c : Config} {s : State} (h : Inv c s) (hop : operating s.ph) :
    ∃ F, boundFn c s = some F := by
  obtain ⟨fid, hfid⟩ := Option.ne_none_iff_exists'.mp (h.bound_iff.mpr hop)
  obtain ⟨F, hF⟩ := Option.ne_none_iff_exists'.mp (h.fn_defined fid hfid)
  exact ⟨F, by rw [boundFn, hfid, Option.bind_some, hF]⟩

/-! ### `PUSH` and `FINAL` in `ABSORB` -/

theorem admission_absorb {s : State} (hp : s.ph = .absorb) : admission absorbAdmitted s = none :=
  (admission_eq_none_iff _ s).mpr (by simp [hp, operating, absorbAdmitted])

theorem len_eq_maxLen_iff (s : State) : s.len = maxLen ↔ s.len.toNat = 2 ^ 61 - 1 :=
  BitVec.toNat_inj.symm

/-- R150: an admitted `PUSH` runs its body. -/
theorem execUnder_push_of_absorb (c : Config) (sym : Sym) {s : State} (hp : s.ph = .absorb) :
    execUnder c (.push sym) s = conclude (pushBody c sym s) := by
  simp only [execUnder, pushUnder, admission_absorb hp]

theorem abortedWith_push_rangeError (c : Config) {sym : Sym} {s : State} (hp : s.ph = .absorb)
    (hs : 255 < sym.toNat) : abortedWith c (.push sym) s .rangeError := by
  rw [abortedWith, execUnder_push_of_absorb c sym hp, pushBody, (charToByte_eq_none_iff sym).mpr hs]
  rfl

theorem pushBody_of_le (c : Config) {sym : Sym} (s : State) (hs : sym.toNat ≤ 255) :
    pushBody c sym s = if s.len = maxLen then .error (.raise .lenOverflow s)
      else (feed c (sym.extractLsb' 0 8) s).map State.countByte := by
  rw [pushBody, (charToByte_eq_some_iff sym _).mpr ⟨hs, rfl⟩]
  rfl

theorem abortedWith_push_lenOverflow (c : Config) {sym : Sym} {s : State} (hp : s.ph = .absorb)
    (hs : sym.toNat ≤ 255) (hl : s.len.toNat = 2 ^ 61 - 1) : abortedWith c (.push sym) s .lenOverflow := by
  rw [abortedWith, execUnder_push_of_absorb c sym hp, pushBody_of_le c s hs, if_pos ((len_eq_maxLen_iff s).mpr hl)]
  rfl

theorem acceptedInto_push {c : Config} {F : CompressionFn} {sym : Sym} {s : State} (hF : boundFn c s = some F)
    (hp : s.ph = .absorb) (hs : sym.toNat ≤ 255) (hl : s.len.toNat ≠ 2 ^ 61 - 1) :
    acceptedInto c (.push sym) s .absorb := by
  have h : execUnder c (.push sym) s = .next ((fed F (sym.extractLsb' 0 8) s).countByte.respond .ok 0) := by
    rw [execUnder_push_of_absorb c sym hp, pushBody_of_le c s hs, if_neg (mt (len_eq_maxLen_iff s).mp hl),
      feed_of_bound c F _ s hF]
    rfl
  obtain ⟨-, -, hph, -⟩ := fed_frame F (sym.extractLsb' 0 8) s
  exact acceptedInto_of_respond h (hph.trans hp)

theorem acceptedInto_final {c : Config} {F : CompressionFn} {s : State} (hF : boundFn c s = some F)
    (hp : s.ph = .absorb) : acceptedInto c .final s .done := by
  have h : execUnder c .final s =
      .next ((((fedAll F (finalStream s.pos s.len) s).setOi 0).setPh .done).respond .ok 0) := by
    simp only [execUnder, finalUnder, admission_absorb hp, finalBody_eq, feedAll_of_bound c F _ s hF]
    rfl
  exact acceptedInto_of_respond h rfl

/-! ### `POP` in `DONE` -/

theorem consumeByte_ph (s : State) : s.consumeByte.ph = if s.oi = 19 then .idle else s.ph :=
  apply_ite State.ph _ _ _

theorem acceptedInto_pop (c : Config) {s : State} (hp : s.ph = .done) (hoi : s.oi.toNat ≤ 19) :
    acceptedInto c .pop s (if s.oi = 19 then .idle else .done) := by
  have hadm : admission doneAdmitted s = none :=
    (admission_eq_none_iff _ s).mpr (by simp [hp, operating, doneAdmitted])
  obtain ⟨e, ha, -⟩ | ⟨-, b, -, -, h⟩ | ⟨-, hgt, -⟩ := execPop_cases s
  · cases hadm.symm.trans ha
  · exact acceptedInto_of_respond h (hp ▸ consumeByte_ph s)
  · exact absurd hoi (Nat.not_le.mpr hgt)

/-! ### The rows -/

/-- R240: the reset event leaves the port and takes effect, whatever the phase. -/
theorem step_of_reset {s : State} {rest : List HostEvent} (hs : s.inputs = .reset :: rest) :
    step s = .next (resetEvent { s with inputs := rest }) := by
  rw [step, nextEvent_cons s _ _ hs]

/-- Settles O42: one row of the table for each phase, then `STAT`, the illegal words and the reset event. -/
theorem phaseTransitionTable : Obligations.PhaseTransitionTable := by
  intro c s hinv
  refine ⟨fun hp => ?unbound, fun hp => ?idle, fun hp => ?absorb, fun hp => ?done,
    fun hp _ hi => refusedWith_of_dead c hp hi, refusedWith_stat c s, fun _ _ _ => step_of_illegal,
    fun _ hs => ⟨_, step_of_reset hs, rfl⟩⟩
  case unbound =>
    exact ⟨fun _ hf => acceptedInto_of_respond (execUnder_bind_defined hp hf) rfl,
      fun _ hf => ⟨_, _, execUnder_bind_undefined hp hf, rfl, rfl, rspCode_responseWord _ _ _⟩,
      fun _ hi hb => refusedWith_capabilityNotBound c (.inl hp) hi (.inr hb)⟩
  case idle =>
    have hop : operating s.ph := .inl hp
    have hnotAbsorb : absorbAdmitted s.ph = false := by rw [hp]; rfl
    have hnotDone : doneAdmitted s.ph = false := by rw [hp]; rfl
    exact ⟨fun _ => refusedWith_bind_of_operating c _ hop, acceptedInto_start c hop, fun _ => abortedWith_start c hop,
      fun _ => refusedWith_seqError c rfl hop hnotAbsorb, refusedWith_seqError c rfl hop hnotAbsorb,
      refusedWith_seqError c rfl hop hnotDone⟩
  case absorb =>
    have hop : operating s.ph := .inr (.inl hp)
    have hnotDone : doneAdmitted s.ph = false := by rw [hp]; rfl
    obtain ⟨F, hF⟩ := hinv.boundFn_eq_some hop
    exact ⟨fun _ => refusedWith_bind_of_operating c _ hop, acceptedInto_start c hop, fun _ => abortedWith_start c hop,
      fun _ => acceptedInto_push hF hp, fun _ => abortedWith_push_lenOverflow c hp,
      fun _ => abortedWith_push_rangeError c hp, acceptedInto_final hF hp,
      refusedWith_seqError c rfl hop hnotDone⟩
  case done =>
    have hop : operating s.ph := .inr (.inr hp)
    have hnotAbsorb : absorbAdmitted s.ph = false := by rw [hp]; rfl
    have hpop := acceptedInto_pop c hp (hinv.done_oi hp)
    exact ⟨fun _ => refusedWith_bind_of_operating c _ hop, acceptedInto_start c hop, fun _ => abortedWith_start c hop,
      fun _ => refusedWith_seqError c rfl hop hnotAbsorb, refusedWith_seqError c rfl hop hnotAbsorb,
      fun hoi => by rwa [if_neg hoi] at hpop, fun hoi => by rwa [if_pos hoi] at hpop⟩

end Sys2Proof.Machine
end

section
/-! PROOFS. The padded buffer as a function of the message (R140, R141, R147). -/

namespace Sys2Proof.Machine

/-! ### The zero bytes and the length field -/

/-- R140: `z` zero bytes bring the length to 56 modulo 64, and fewer than a block of them do. -/
theorem padZeros_spec (L : Nat) : (L + 1 + padZeros L) % 64 = 56 ∧ padZeros L ≤ 63 := by
  unfold padZeros
  omega

theorem padZeros_mod (L : Nat) : padZeros (L % 64) = padZeros L := by
  have hmod := padZeros_spec (L % 64)
  have hL := padZeros_spec L
  omega

@[simp] theorem be64_length (n : Nat) : (be64 n).length = 8 := rfl

/-! ### The padded buffer -/

theorem pad_length (m : List Byte) : (pad m).length = m.length + 1 + padZeros m.length + 8 := by
  simp only [pad, List.length_append, List.length_singleton, List.length_replicate, be64_length]

/-- R141: the length of the padded buffer is the block count times 64. -/
theorem pad_length_eq_mul (m : List Byte) : (pad m).length = 64 * ((m.length + 8) / 64 + 1) := by
  have hz := padZeros_spec m.length
  rw [pad_length]
  omega

theorem pad_take_message (m : List Byte) : (pad m).take m.length = m := by
  simp [pad, List.append_assoc]

theorem pad_getElem?_sentinel (m : List Byte) : (pad m)[m.length]? = some 0x80#8 := by
  simp [pad, List.append_assoc]

/-- R141: between the sentinel and the length field stand zero bytes. -/
theorem pad_getElem?_zero (m : List Byte) {j : Nat} (h1 : m.length + 1 ≤ j) (h2 : j + 9 ≤ (pad m).length) :
    (pad m)[j]? = some 0x00#8 := by
  rw [pad_length] at h2
  have hbefore : j < (m ++ [0x80#8] ++ List.replicate (padZeros m.length) 0x00#8).length := by
    simp only [List.length_append, List.length_singleton, List.length_replicate]
    omega
  have hafter : (m ++ [0x80#8]).length ≤ j := by simpa using h1
  rw [pad, List.getElem?_append_left hbefore, List.getElem?_append_right hafter, List.getElem?_replicate,
    if_pos (by rw [List.length_append, List.length_singleton]; omega)]

/-- R141: the last eight bytes are the length field. -/
theorem pad_drop_length (m : List Byte) : (pad m).drop ((pad m).length - 8) = be64 (8 * m.length) := by
  have hlen : (pad m).length - 8 = (m ++ [0x80#8] ++ List.replicate (padZeros m.length) 0x00#8).length := by
    rw [pad, List.length_append, be64_length, Nat.add_sub_cancel]
  rw [hlen, pad, List.drop_left]

/-! ### The blocks -/

theorem firstBlocks_length (n : Nat) (p : List Byte) : (firstBlocks n p).length = n := by
  induction n generalizing p with
  | zero => rfl
  | succ n ih => rw [firstBlocks, List.length_cons, ih]

/-- Joined, the first `n` blocks are the first `64 * n` bytes (R190). -/
theorem firstBlocks_flatten (n : Nat) (p : List Byte) : (firstBlocks n p).flatten = p.take (64 * n) := by
  induction n generalizing p with
  | zero => rfl
  | succ n ih => rw [firstBlocks, List.flatten_cons, ih, Nat.mul_succ, Nat.add_comm, List.take_add]

/-- A whole number of blocks, joined, gives the byte string back (R190). -/
theorem blocks_flatten {p : List Byte} (h : 64 ∣ p.length) : (blocks p).flatten = p := by
  rw [blocks, firstBlocks_flatten, Nat.mul_div_cancel' h, List.take_length]

theorem blocks_pad_length (m : List Byte) : (blocks (pad m)).length = (m.length + 8) / 64 + 1 := by
  rw [blocks, firstBlocks_length, pad_length_eq_mul, Nat.mul_div_cancel_left _ (by decide)]

/-- Settles O33: the length, the least multiple that holds the message and nine bytes more, the bytes and the blocks. -/
theorem paddedBufferShape : Obligations.PaddedBufferShape := by
  intro m _
  have hleast (n : Nat) (hn : 64 ∣ n) (hle : m.length + 9 ≤ n) : (pad m).length ≤ n := by
    rw [pad_length_eq_mul]
    omega
  have hdvd : 64 ∣ (pad m).length := ⟨_, pad_length_eq_mul m⟩
  exact ⟨pad_length m, pad_length_eq_mul m, hleast, pad_take_message m, pad_getElem?_sentinel m,
    fun _ => pad_getElem?_zero m, pad_drop_length m, blocks_pad_length m, blocks_flatten hdvd⟩

/-! ### The corner cases -/

/-- The row of the table of R147 for messages of length `L`, from the formulas of R140 and R141: `L`, `L mod 64`, zero
bytes, padded length, blocks, length bytes. -/
def paddingRow (L : Nat) : Nat × Nat × Nat × Nat × Nat × List Byte :=
  (L, L % 64, padZeros L, L + 1 + padZeros L + 8, (L + 8) / 64 + 1, be64 (8 * L))

/-- Settles O34: each row of the table is the row the formulas give, and the formulas hold of every message. -/
theorem paddingCornerCases : Obligations.PaddingCornerCases := by
  intro row hrow
  have hformulas : row = paddingRow row.1 := by
    revert row
    decide
  intro m hm
  rw [hformulas, ← hm]
  exact ⟨rfl, rfl, pad_length m, blocks_pad_length m, pad_getElem?_sentinel m, pad_drop_length m⟩

end Sys2Proof.Machine
end

section
/-! PROOFS. What `FINAL` feeds and what that does to State (R142, R145). -/

namespace Sys2Proof.Machine

/-! ### Streams and block boundaries -/

theorem fedAll_pos_toNat (F : CompressionFn) (p : List Byte) (s : State) :
    (fedAll F p s).pos.toNat = (s.pos.toNat + p.length) % 64 := by
  obtain ⟨-, -, -, -, -, -, -, -, hpos⟩ := fedAll_frame F p s
  rw [hpos, BitVec.toNat_add, BitVec.toNat_ofNat]
  omega

/-- R153: inside a block `Feed` does not write State. -/
theorem fed_H_of_ne (F : CompressionFn) (b : Byte) {s : State} (h : s.pos ≠ 63) : (fed F b s).H = s.H := by
  rw [fed_H, completesBlock, if_neg (by simpa using h)]

/-- R153: the byte that completes a block compresses it, with the schedule that byte completed. -/
theorem fed_H_of_last (F : CompressionFn) (b : Byte) {s : State} (h : s.pos = 63) :
    (fed F b s).H = F s.H (fed F b s).W := by
  obtain ⟨-, -, -, -, -, -, -, -, -, -, hW⟩ := fed_frame F b s
  rw [fed_H, completesBlock, if_pos (by simp [h]), hW]

/-- A stream that ends inside the block it begins in compresses nothing. -/
theorem fedAll_H_of_lt (F : CompressionFn) (p : List Byte) {s : State} (h : s.pos.toNat + p.length < 64) :
    (fedAll F p s).H = s.H := by
  induction p generalizing s with
  | nil => rfl
  | cons b p ih =>
    rw [List.length_cons] at h
    have hne : s.pos ≠ 63 := by bv_omega
    obtain ⟨-, -, -, -, -, -, -, -, hpos, -⟩ := fed_frame F b s
    have hrest : (fed F b s).pos.toNat + p.length < 64 := by rw [hpos]; bv_omega
    rw [fedAll, ih hrest, fed_H_of_ne F b hne]

/-- The last byte of a stream that ends at a block boundary is fed at position 63, and its `Compress` is the last
effect on State. -/
theorem fedAll_dropLast_of_boundary (F : CompressionFn) {p : List Byte} {s : State} (hp : p ≠ [])
    (h : (s.pos.toNat + p.length) % 64 = 0) :
    (fedAll F p.dropLast s).pos = 63 ∧ (fedAll F p s).H = F (fedAll F p.dropLast s).H (fedAll F p s).W := by
  have hpos : (fedAll F p.dropLast s).pos = 63 := by
    have hlen := List.length_pos_of_ne_nil hp
    apply BitVec.eq_of_toNat_eq
    rw [fedAll_pos_toNat, List.length_dropLast]
    show _ = 63
    omega
  have hlast : fedAll F p s = fed F (p.getLast hp) (fedAll F p.dropLast s) := by
    conv_lhs => rw [← List.dropLast_concat_getLast hp, fedAll_append]
    rfl
  exact ⟨hpos, by rw [hlast, fed_H_of_last F _ hpos]⟩

/-- A stream that completes the block it begins in, and no other, compresses once. -/
theorem fedAll_H_of_eq (F : CompressionFn) {p : List Byte} {s : State} (h : s.pos.toNat + p.length = 64) :
    (fedAll F p s).H = F s.H (fedAll F p s).W := by
  have hlen : 0 < p.length := by have := s.pos.isLt; omega
  obtain ⟨-, hH⟩ := fedAll_dropLast_of_boundary F (s := s) (List.ne_nil_of_length_pos hlen) (by rw [h])
  rw [hH, fedAll_H_of_lt F p.dropLast (by rw [List.length_dropLast]; omega)]

/-! ### The stream of `FINAL` -/

theorem finalStream_length (pos : BitVec 6) (len : BitVec 61) :
    (finalStream pos len).length = padZeros pos.toNat + 9 := by
  simp [finalStream]

/-- R145: `FINAL` ends at a block boundary. -/
theorem finalStream_reaches_boundary (pos : BitVec 6) (len : BitVec 61) :
    (pos.toNat + (finalStream pos len).length) % 64 = 0 := by
  have hz := padZeros_spec pos.toNat
  rw [finalStream_length]
  omega

theorem padZeros_of_le {r : Nat} (h : r ≤ 55) : padZeros r = 55 - r := by
  unfold padZeros
  omega

theorem padZeros_of_ge {r : Nat} (h : 56 ≤ r) (h64 : r < 64) : padZeros r = 119 - r := by
  unfold padZeros
  omega

/-- R145: past position 55 the sentinel and the first zero bytes complete the current block, and 56 zero bytes and the
length make one more. -/
theorem finalStream_of_ge {pos : BitVec 6} (h : 56 ≤ pos.toNat) (len : BitVec 61) :
    finalStream pos len = (0x80#8 :: List.replicate (63 - pos.toNat) 0x00#8) ++
      (List.replicate 56 0x00#8 ++ be64 (bitLength len)) := by
  have hz : padZeros pos.toNat = (63 - pos.toNat) + 56 := by
    rw [padZeros_of_ge h pos.isLt]
    have := pos.isLt
    omega
  rw [finalStream, hz, List.replicate_add]
  simp only [List.append_assoc, List.cons_append, List.nil_append]

/-- R142: what `FINAL` does to an engine with a function bound. -/
theorem execUnder_final_of_bound {c : Config} {F : CompressionFn} {s : State} (hF : boundFn c s = some F)
    (hp : s.ph = .absorb) :
    execUnder c .final s =
      .next ((((fedAll F (finalStream s.pos s.len) s).setOi 0).setPh .done).respond .ok 0) := by
  simp only [execUnder, finalUnder, admission_absorb hp, finalBody_eq, feedAll_of_bound c F _ s hF]
  rfl

theorem isSome_fn_of_boundFn {c : Config} {F : CompressionFn} {s : State} (hF : boundFn c s = some F) :
    s.fn.isSome = true := by
  obtain ⟨fid, hfid, -⟩ := Option.bind_eq_some_iff.mp hF
  rw [hfid, Option.isSome_some]

/-- R142: the response of `FINAL` on a bound engine with no error latched. -/
theorem responseWord_setPh_done {s : State} (hb : s.fn.isSome = true) (hl : s.lerr = .ok) :
    responseWord .ok 0 (s.setPh .done) = 0x03800000#32 := by
  rw [responseWord_eq (s.setPh_ph .done) hb hl]
  rfl

/-! ### The statements -/

/-- Settles O30: the refusals phase by phase and, in `ABSORB`, the stream of `FINAL` with `z = padZeros pos`. -/
theorem finalPadsAndFrames : Obligations.FinalPadsAndFrames := by
  intro s
  simp only [exec_eq_execUnder]
  refine ⟨fun hp => refusedWith_capabilityNotBound _ hp nofun (.inr nofun), fun hp => ?refused,
    fun hp F hF => ?absorb⟩
  case refused =>
    have hop : operating s.ph := hp.imp_right .inr
    exact refusedWith_seqError _ rfl hop (by obtain hp | hp := hp <;> rw [hp] <;> rfl)
  case absorb =>
    obtain ⟨hlen, -, -, hfn, hlerr, -, hinputs, hresets, -⟩ := fedAll_frame F (finalStream s.pos s.len) s
    obtain ⟨hz, hzle⟩ := padZeros_spec s.pos.toNat
    have hpos : (fedAll F (finalStream s.pos s.len) s).pos = 0 :=
      BitVec.eq_of_toNat_eq ((fedAll_pos_toNat F _ s).trans (finalStream_reaches_boundary s.pos s.len))
    have hexample (h3 : s.pos = 3) : padZeros s.pos.toNat = 52 ∧
        (fedAll F (finalStream s.pos s.len) s).H = F s.H (fedAll F (finalStream s.pos s.len) s).W := by
      have hz3 : padZeros s.pos.toNat = 52 := by rw [h3]; rfl
      exact ⟨hz3, fedAll_H_of_eq F (by rw [finalStream_length, hz3, h3]; rfl)⟩
    have hbound : (fedAll F (finalStream s.pos s.len) s).fn.isSome = true := hfn ▸ isSome_fn_of_boundFn hF
    exact ⟨padZeros s.pos.toNat, _, hz, hzle, feedAll_of_bound _ F _ s hF, execUnder_final_of_bound hF hp, hpos, hlen,
      hfn, hlerr, hinputs, hresets, fun _ => hexample,
      fun hok => responseWord_setPh_done hbound (hlerr.trans hok)⟩

/-- Settles O31: the stream of `FINAL` ends at a block boundary; up to position 55 it is in the current block, and
from 56 on it splits where that block is complete. -/
theorem finalWorkByPosition : Obligations.FinalWorkByPosition := by
  intro F s hp hF hr
  have hlt := s.pos.isLt
  have hfeed (p : List Byte) := feedAll_of_bound Config.platform F p s hF
  have hboundary := finalStream_reaches_boundary s.pos s.len
  have hlen := finalStream_length s.pos s.len
  have hne : finalStream s.pos s.len ≠ [] := List.ne_nil_of_length_pos (by omega)
  obtain ⟨hv, hu⟩ := fedAll_dropLast_of_boundary F hne hboundary
  refine ⟨_, _, _, execUnder_final_of_bound hF hp, ?_, hfeed _, rfl, rfl, hfeed _, hv, hu, ?_⟩
  · exact BitVec.eq_of_toNat_eq ((fedAll_pos_toNat F _ s).trans hboundary)
  rw [← hr]
  refine ⟨fun hle => ?oneBlock, fun hge => ?twoBlocks⟩
  case oneBlock =>
    have hz := padZeros_of_le hle
    exact ⟨hz, by omega, fedAll_H_of_lt F _ (by rw [List.length_dropLast]; omega)⟩
  case twoBlocks =>
    have hz := padZeros_of_ge hge hlt
    have hsplit := finalStream_of_ge hge s.len
    have hfirst : s.pos.toNat + (0x80#8 :: List.replicate (63 - s.pos.toNat) 0x00#8).length = 64 := by
      rw [List.length_cons, List.length_replicate]
      omega
    have hx0 := fedAll_pos_toNat F (0x80#8 :: List.replicate (63 - s.pos.toNat) 0x00#8) s
    rw [hfirst] at hx0
    refine ⟨hz, by omega, _, hfeed _, BitVec.eq_of_toNat_eq hx0, fedAll_H_of_eq F hfirst, ?_, ?_⟩
    · rw [hsplit, List.dropLast_append_of_ne_nil (by simp), fedAll_append]
      exact fedAll_H_of_lt F _ (by simp [hx0])
    · obtain ⟨-, -, -, hfn, -⟩ := fedAll_frame F (0x80#8 :: List.replicate (63 - s.pos.toNat) 0x00#8) s
      rw [hsplit, fedAll_append]
      exact feedAll_of_bound _ F _ _ ((boundFn_congr _ hfn).trans hF)

end Sys2Proof.Machine
end

section
/-! PROOFS. The `Feed` stream of a whole call (R146). -/

namespace Sys2Proof.Machine

/-! ### `Feed` and the two registers it neither reads nor writes -/

/-- The engine with another byte count and another word on the response port. -/
def State.withCount (s : State) (len : BitVec 61) (rsp : Option Word) : State := { s with len := len, rsp := rsp }

theorem State.withCount_pos (s : State) (len : BitVec 61) (rsp : Option Word) : (s.withCount len rsp).pos = s.pos := rfl

theorem packByte_withCount (b : Byte) (s : State) (len : BitVec 61) (rsp : Option Word) :
    packByte b (s.withCount len rsp) = (packByte b s).withCount len rsp := by
  rw [packByte, packByte, State.withCount_pos]
  split <;> rfl

theorem fed_withCount (F : CompressionFn) (b : Byte) (s : State) (len : BitVec 61) (rsp : Option Word) :
    fed F b (s.withCount len rsp) = (fed F b s).withCount len rsp := by
  simp only [fed, packByte_withCount, State.withCount_pos]
  split <;> rfl

theorem fedAll_withCount (F : CompressionFn) (p : List Byte) (s : State) (len : BitVec 61) (rsp : Option Word) :
    fedAll F p (s.withCount len rsp) = (fedAll F p s).withCount len rsp := by
  induction p generalizing s with
  | nil => rfl
  | cons b p ih => rw [fedAll, fed_withCount, ih, fedAll]

/-! ### Command sequences -/

theorem trace_cons_of_next {c : Config} {i : Instr} {s t : State} (h : execUnder c i s = .next t) (is : List Instr) :
    trace c (i :: is) s = (trace c is t).map (Prod.map (t.rsp.toList ++ ·) id) := by
  rw [trace, h]
  rfl

/-- The commands after a sequence run from the state it leaves, and their responses follow its own. -/
theorem trace_append (c : Config) (is js : List Instr) (s : State) :
    trace c (is ++ js) s = (trace c is s).bind fun a => (trace c js a.2).map (Prod.map (a.1 ++ ·) id) := by
  induction is generalizing s with
  | nil =>
    have hid : Prod.map (([] : List Word) ++ ·) (id : State → State) = id := rfl
    rw [List.nil_append, trace, Option.bind_some, hid, Option.map_id, id]
  | cons i is ih =>
    simp only [List.cons_append, trace]
    cases nextOf (execUnder c i s) with
    | none => rfl
    | some t =>
      simp only [ih]
      cases trace c is t with
      | none => rfl
      | some a => simp [Function.comp_def, Prod.map_def]

theorem symOfByte_toNat_le (b : Byte) : (symOfByte b).toNat ≤ 255 := by
  unfold symOfByte
  bv_omega

theorem symOfByte_lowByte (b : Byte) : (symOfByte b).extractLsb' 0 8 = b := by
  apply BitVec.eq_of_toNat_eq
  rw [toNat_lowByte_of_le (symOfByte_toNat_le b)]
  exact BitVec.toNat_setWidth_of_le (by decide)

/-- R150: a byte pushed into a call that is not full is fed and counted; the response carries the status before it,
which `PUSH` does not change. -/
theorem execUnder_push_of_bound {c : Config} {F : CompressionFn} {s : State} (b : Byte) (hF : boundFn c s = some F)
    (hp : s.ph = .absorb) (hl : s.len.toNat ≠ 2 ^ 61 - 1) :
    execUnder c (.push (symOfByte b)) s =
      .next ((fed F b s).withCount (s.len + 1) (some (responseWord .ok 0 s))) := by
  obtain ⟨hlen, -, hph, hfn, hlerr, -⟩ := fed_frame F b s
  have hanswer : responseWord .ok 0 (fed F b s).countByte = responseWord .ok 0 s :=
    responseWord_eq hph (congrArg Option.isSome hfn) hlerr
  rw [execUnder_push_of_absorb c _ hp, pushBody_of_le c s (symOfByte_toNat_le b),
    if_neg (mt (len_eq_maxLen_iff s).mp hl), symOfByte_lowByte, feed_of_bound c F b s hF, ← hanswer, ← hlen]
  rfl

/-- R150: the pushes of `m` feed `m` and count its bytes, and each gives the same response. -/
theorem trace_pushes {c : Config} {F : CompressionFn} (m : List Byte) {s : State} (hF : boundFn c s = some F)
    (hp : s.ph = .absorb) (hl : s.len.toNat + m.length ≤ 2 ^ 61 - 1) :
    ∃ rsp, trace c (m.map fun b => .push (symOfByte b)) s =
      some (List.replicate m.length (responseWord .ok 0 s),
        (fedAll F m s).withCount (s.len + BitVec.ofNat 61 m.length) rsp) := by
  induction m generalizing s with
  | nil => exact ⟨s.rsp, by simp [trace, fedAll, State.withCount]⟩
  | cons b m ih =>
    rw [List.length_cons] at hl
    let t := (fed F b s).withCount (s.len + 1) (some (responseWord .ok 0 s))
    have hpush : execUnder c (.push (symOfByte b)) s = .next t := execUnder_push_of_bound b hF hp (by omega)
    obtain ⟨-, -, hph, hfn, hlerr, -⟩ := fed_frame F b s
    have hanswer : responseWord .ok 0 t = responseWord .ok 0 s :=
      responseWord_eq hph (congrArg Option.isSome hfn) hlerr
    have hcount : t.len + BitVec.ofNat 61 m.length = s.len + BitVec.ofNat 61 (m.length + 1) := by
      rw [Nat.add_comm m.length, BitVec.ofNat_add, ← BitVec.add_assoc]
      rfl
    have hroom : t.len.toNat + m.length ≤ 2 ^ 61 - 1 := by
      show (s.len + 1).toNat + m.length ≤ 2 ^ 61 - 1
      bv_omega
    obtain ⟨rsp, hrest⟩ := ih (s := t) ((boundFn_congr c hfn).trans hF) (hph.trans hp) hroom
    refine ⟨rsp, ?_⟩
    rw [List.map_cons, trace_cons_of_next hpush, hrest, hanswer, hcount, fedAll_withCount]
    rfl

/-! ### The padded buffer as a stream -/

/-- R146: `Pad(m)` is the message and then what `FINAL` feeds after it. -/
theorem pad_eq_append_finalStream {m : List Byte} {pos : BitVec 6} {len : BitVec 61}
    (hpos : pos.toNat = m.length % 64) (hlen : len.toNat = m.length) : pad m = m ++ finalStream pos len := by
  rw [pad, finalStream, bitLength, hpos, hlen, padZeros_mod]
  simp only [List.append_assoc]

/-- R146: `START` and the pushes of `m` feed `m` to the freshly started call, with one response to all of them. -/
theorem trace_start_pushes {c : Config} {F : CompressionFn} {m : List Byte} {s : State} (hop : operating s.ph)
    (hF : boundFn c s = some F) (hle : m.length ≤ 2 ^ 61 - 1) :
    ∃ rsp, trace c ([.start .string] ++ m.map fun b => .push (symOfByte b)) s =
      some (List.replicate (m.length + 1) (responseWord .ok 0 (s.beginCall c.iv)),
        (fedAll F m (s.beginCall c.iv)).withCount (BitVec.ofNat 61 m.length) rsp) := by
  have hroom : (0#61).toNat + m.length ≤ 2 ^ 61 - 1 := by simpa using hle
  obtain ⟨rsp, hpushes⟩ := trace_pushes (s := (s.beginCall c.iv).respond .ok 0) m hF rfl hroom
  have hfed : fedAll F m ((s.beginCall c.iv).respond .ok 0) = (fedAll F m (s.beginCall c.iv)).withCount 0 _ :=
    fedAll_withCount F m (s.beginCall c.iv) 0 _
  have hcount : ((s.beginCall c.iv).respond .ok 0).len + BitVec.ofNat 61 m.length = BitVec.ofNat 61 m.length :=
    BitVec.zero_add _
  refine ⟨rsp, ?_⟩
  rw [List.singleton_append, trace_cons_of_next (execUnder_start_string c hop), hpushes, hfed, hcount]
  rfl

/-- R146: `FINAL` after the message `m` feeds what is left of `Pad(m)`. -/
theorem execUnder_final_after_message {c : Config} {F : CompressionFn} {m : List Byte} {s : State} {rsp : Option Word}
    (hF : boundFn c s = some F) (hle : m.length ≤ 2 ^ 61 - 1) (hph : s.ph = .absorb) (hpos : s.pos = 0)
    (hoi : s.oi = 0) :
    execUnder c .final ((fedAll F m s).withCount (BitVec.ofNat 61 m.length) rsp) =
      .next ((((fedAll F (pad m) s).withCount (BitVec.ofNat 61 m.length) rsp).setPh .done).respond .ok 0) := by
  let t := (fedAll F m s).withCount (BitVec.ofNat 61 m.length) rsp
  obtain ⟨-, -, htph, htfn, -⟩ := fedAll_frame F m s
  obtain ⟨-, huoi, -⟩ := fedAll_frame F (pad m) s
  have htpos : t.pos.toNat = m.length % 64 := by
    rw [State.withCount_pos, fedAll_pos_toNat, hpos]
    simp
  have htlen : t.len.toNat = m.length := Nat.mod_eq_of_lt (by omega)
  have hstream : fedAll F (finalStream t.pos t.len) t =
      (fedAll F (pad m) s).withCount (BitVec.ofNat 61 m.length) rsp := by
    rw [fedAll_withCount, ← fedAll_append, ← pad_eq_append_finalStream htpos htlen]
  have hsetOi : ((fedAll F (pad m) s).withCount (BitVec.ofNat 61 m.length) rsp).setOi 0 =
      (fedAll F (pad m) s).withCount (BitVec.ofNat 61 m.length) rsp := by
    rw [← hoi, ← huoi]
    rfl
  rw [execUnder_final_of_bound (s := t) ((boundFn_congr c htfn).trans hF) (htph.trans hph), hstream, hsetOi]

/-- Settles O52: `START` makes the state the stream begins in, the pushes feed the message and `FINAL` the rest of
`Pad(m)`. -/
theorem theFeedStreamOfACallIsPad : Obligations.TheFeedStreamOfACallIsPad := by
  intro c F m s hop hF hle
  have hfeed (p : List Byte) : feedAll c p (s.beginCall c.iv) = .ok (fedAll F p (s.beginCall c.iv)) :=
    feedAll_of_bound c F p _ hF
  obtain ⟨rsp, habsorb⟩ := trace_start_pushes hop hF hle
  have hfinal := execUnder_final_after_message (s := s.beginCall c.iv) (rsp := rsp) hF hle rfl rfl rfl
  have htrace := trace_append c ([.start .string] ++ m.map fun b => .push (symOfByte b)) [.final] s
  rw [habsorb, Option.bind_some, trace_cons_of_next hfinal] at htrace
  refine ⟨_, _, _, htrace, hfeed _, rfl, fun i hi => ⟨_, hfeed _, ?_⟩⟩
  rw [fedAll_pos_toNat, List.length_take, Nat.min_eq_left hi.le]
  exact congrArg (· % 64) (Nat.zero_add i)

end Sys2Proof.Machine
end

section
/-! PROOFS. `Feed` by its arithmetic on `pos` (R153, R155, R158), and `PUSH` in every phase (R150). -/

namespace Sys2Proof.Machine

/-! ### The tests and the index of `Feed` as arithmetic -/

theorem slotIndex_toNat (pos : BitVec 6) : (pos.extractLsb' 2 4).toNat = pos.toNat / 4 := by
  rw [BitVec.extractLsb'_toNat, Nat.shiftRight_eq_div_pow]
  omega

theorem completesWord_iff (pos : BitVec 6) : completesWord pos = true ↔ pos.toNat % 4 = 3 := by
  rw [completesWord, beq_iff_eq, ← BitVec.toNat_inj, BitVec.extractLsb'_toNat, Nat.shiftRight_zero]
  rfl

theorem completesBlock_iff (pos : BitVec 6) : completesBlock pos = true ↔ pos = 63#6 := beq_iff_eq

theorem vector_set_eq_setIfInBounds {α : Type} {n : Nat} (xs : Vector α n) (i : Nat) (x : α) (h : i < n) :
    xs.set i x h = xs.setIfInBounds i x := by
  ext j hj
  rw [Vector.getElem_set, Vector.getElem_setIfInBounds]

/-- R153: the packer writes the slot of `pos` when `pos` is the last of its four positions. -/
theorem packByte_W_eq (b : Byte) (s : State) :
    (packByte b s).W = if s.pos.toNat % 4 = 3
      then s.W.setIfInBounds (s.pos.toNat / 4) ((s.acc <<< 8) ||| b.setWidth 32) else s.W := by
  simp only [packByte_W, completesWord_iff, vector_set_eq_setIfInBounds, slotIndex_toNat]

/-- R153, slot by slot: only the last byte of a word writes that word's slot. -/
theorem packByte_W_getElem (b : Byte) (s : State) (k : Nat) (hk : k < 16) :
    (packByte b s).W[k] = if s.pos.toNat = 4 * k + 3 then (s.acc <<< 8) ||| b.setWidth 32 else s.W[k] := by
  simp only [packByte_W_eq]
  split
  case isTrue h =>
    rw [Vector.getElem_setIfInBounds]
    exact if_congr (by omega) rfl rfl
  case isFalse h => exact (if_neg (by omega)).symm

/-! ### The whole of `Feed` on a bound engine -/

/-- R153: the registers `Feed` writes, with `H` from the schedule the packer left; all others are kept. -/
theorem fed_eq (F : CompressionFn) (b : Byte) (s : State) :
    fed F b s = { s with
      acc := (packByte b s).acc, W := (packByte b s).W,
      H := if s.pos = 63#6 then F s.H (packByte b s).W else s.H, pos := s.pos + 1 } := by
  have hH := fed_H F b s
  simp only [completesBlock_iff] at hH
  obtain ⟨hlen, hoi, hph, hfn, hlerr, hrsp, hinputs, hresets, hpos, hacc, hW⟩ := fed_frame F b s
  exact (State.mk.injEq ..).mpr
    ⟨hH, hW, hacc, hlen, hpos, hoi, hph, hfn, hlerr, hrsp, hinputs, hresets⟩

theorem ofNat_pos_succ_mod (pos : BitVec 6) : BitVec.ofNat 6 ((pos.toNat + 1) % 64) = pos + 1 := by
  bv_omega

/-- Settles O25: the packer's half, then `Compress` on the schedule it left. -/
theorem feedPacksAndCompresses : Obligations.FeedPacksAndCompresses := by
  intro c F b s hF
  simp only [feed_of_bound c F b s hF, fed_eq, packByte_acc, packByte_W_eq, ofNat_pos_succ_mod]

/-- Settles O26: the frame of `Feed`, and a slot other than that of `pos` is not written. -/
theorem feedLeavesTheRestAlone : Obligations.FeedLeavesTheRestAlone := by
  intro c b s t h
  obtain ⟨hlen, hoi, hph, hfn, hlerr, -, -, -, -, hacc, hW⟩ := feed_frame c b s t h
  refine ⟨hlen, hoi, hph, hfn, hlerr, fun k hk hne => ?_, hacc.trans (packByte_acc b s)⟩
  simp only [hW]
  rw [packByte_W_getElem b s k hk, if_neg (by omega)]

/-! ### Four bytes make a word -/

/-- A byte shifted in at the bottom of the accumulator, as a number (R55, R153). -/
theorem shiftIn_acc_toNat (acc : Word) (b : Byte) :
    ((acc <<< 8) ||| b.setWidth 32).toNat = (256 * acc.toNat + b.toNat) % 2 ^ 32 := by
  have hb : b.toNat < 2 ^ 8 := b.isLt
  have hshift : (acc <<< 8).toNat = (acc.toNat % 2 ^ 24) <<< 8 := by
    rw [BitVec.toNat_shiftLeft, Nat.shiftLeft_eq, Nat.shiftLeft_eq]
    omega
  rw [BitVec.toNat_or, hshift, BitVec.toNat_setWidth_of_le (by decide), ← Nat.shiftLeft_add_eq_or_of_lt hb,
    Nat.shiftLeft_eq]
  omega

theorem fed_acc_toNat (F : CompressionFn) (b : Byte) (s : State) :
    (fed F b s).acc.toNat = (256 * s.acc.toNat + b.toNat) % 2 ^ 32 := by
  obtain ⟨-, -, -, -, -, -, -, -, -, hacc, -⟩ := fed_frame F b s
  rw [hacc, packByte_acc, shiftIn_acc_toNat]

theorem fed_pos_toNat (F : CompressionFn) (b : Byte) (s : State) :
    (fed F b s).pos.toNat = (s.pos.toNat + 1) % 64 := fedAll_pos_toNat F [b] s

/-- R153: the byte that completes the word of slot `k` writes the new accumulator there; no other byte writes it. -/
theorem fed_W_getElem (F : CompressionFn) (b : Byte) (s : State) (k : Nat) (hk : k < 16) :
    (fed F b s).W[k] = if s.pos.toNat = 4 * k + 3 then (fed F b s).acc else s.W[k] := by
  obtain ⟨-, -, -, -, -, -, -, -, -, hacc, hW⟩ := fed_frame F b s
  simp only [hW, hacc, packByte_acc]
  exact packByte_W_getElem b s k hk

/-- A stream that ends inside the word it begins in writes no slot (R154). -/
theorem fedAll_W_of_lt (F : CompressionFn) (p : List Byte) {s : State} (h : s.pos.toNat % 4 + p.length < 4) :
    (fedAll F p s).W = s.W := by
  induction p generalizing s with
  | nil => rfl
  | cons b p ih =>
    rw [List.length_cons] at h
    have hrest : (fed F b s).pos.toNat % 4 + p.length < 4 := by rw [fed_pos_toNat]; omega
    obtain ⟨-, -, -, -, -, -, -, -, -, -, hW⟩ := fed_frame F b s
    rw [fedAll, ih hrest, hW, packByte_W_eq, if_neg (by omega)]

/-- R155: four bytes push every older bit out of the accumulator. -/
theorem fedAll_four_acc_toNat (F : CompressionFn) (b0 b1 b2 b3 : Byte) (s : State) :
    (fedAll F [b0, b1, b2, b3] s).acc.toNat =
      b0.toNat * 2 ^ 24 + b1.toNat * 2 ^ 16 + b2.toNat * 2 ^ 8 + b3.toNat := by
  simp only [fedAll, fed_acc_toNat]
  omega

/-- R154, R155: four bytes from the first position of slot `k` write the accumulator to that slot and no other. -/
theorem fedAll_four_W_getElem (F : CompressionFn) (b0 b1 b2 b3 : Byte) {s : State} {k : Nat}
    (hpos : s.pos.toNat = 4 * k) (j : Nat) (hj : j < 16) :
    (fedAll F [b0, b1, b2, b3] s).W[j] = if j = k then (fedAll F [b0, b1, b2, b3] s).acc else s.W[j] := by
  have hkeep : (fedAll F [b0, b1, b2] s).W = s.W := fedAll_W_of_lt F _ (by rw [hpos]; simp)
  have hlast : (fedAll F [b0, b1, b2] s).pos.toNat = 4 * k + 3 := by
    have hlt := s.pos.isLt
    rw [fedAll_pos_toNat, hpos]
    simp only [List.length_cons, List.length_nil]
    omega
  have hwrite := fed_W_getElem F b3 (fedAll F [b0, b1, b2] s) j hj
  simp only [hlast, hkeep] at hwrite
  exact hwrite.trans (if_congr (by omega) rfl rfl)

/-- Settles O27: the fourth byte writes the accumulator, which the four bytes fill. -/
theorem fourBytesMakeABigEndianWord : Obligations.FourBytesMakeABigEndianWord := by
  intro c F b0 b1 b2 b3 k hk s hF hpos
  have hslot := fedAll_four_W_getElem F b0 b1 b2 b3 hpos
  refine ⟨_, feedAll_of_bound c F _ s hF, ?_, fun j hj hne => ?_⟩
  · rw [hslot k hk, if_pos rfl, fedAll_four_acc_toNat]
  · rw [hslot j hj, if_neg hne]

/-! ### `PUSH` -/

theorem symOfByte_of_le {sym : Sym} (h : sym.toNat ≤ 255) : symOfByte (sym.extractLsb' 0 8) = sym := by
  apply BitVec.eq_of_toNat_eq
  rw [symOfByte, BitVec.toNat_setWidth_of_le (by decide), toNat_lowByte_of_le h]

/-- Settles O29: the refusals by phase, the two aborts and, where the byte is accepted, `Feed` and the count. -/
theorem pushAbsorbsAByte : Obligations.PushAbsorbsAByte := by
  intro sym s
  simp only [exec_eq_execUnder]
  refine ⟨fun hp => refusedWith_capabilityNotBound _ hp nofun (.inr nofun), fun hp => ?refused,
    abortedWith_push_rangeError _, abortedWith_push_lenOverflow _, fun hp hs hl F hF => ?accepted,
    fun hp hf hl => ?response⟩
  case refused =>
    have hop : operating s.ph := hp.imp_right .inr
    exact refusedWith_seqError _ rfl hop (by obtain hp | hp := hp <;> rw [hp] <;> rfl)
  case accepted =>
    have h := execUnder_push_of_bound (sym.extractLsb' 0 8) hF hp hl.ne
    rw [symOfByte_of_le hs, fed_eq, packByte_acc, packByte_W_eq] at h
    exact h
  case response =>
    rw [responseWord_eq hp (Option.isSome_iff_ne_none.mpr hf) hl]
    rfl

end Sys2Proof.Machine
end

section
/-! PROOFS. `POP` and the serializer (R170, R171): each `POP` in `DONE` answers with the next byte of `Ser(H)`, and
twenty of them read the whole of it. -/

namespace Sys2Proof.Machine

/-! ### The bytes of the digest -/

theorem byteOfWord_eq (v : Word) (j : Nat) : byteOfWord v j = v.toNat / 2 ^ (8 * (3 - j)) % 256 := by
  rw [byteOfWord, Nat.shiftRight_eq_div_pow]
  exact Nat.and_two_pow_sub_one_eq_mod _ 8

/-- R170: the word index is the upper part of `oi` and the byte within the word its two low bits. -/
theorem digestByteAt_eq (H : DigestWords) (oi : BitVec 5) :
    digestByteAt H oi = H[oi.toNat / 4]?.map fun v => byteOfWord v (oi.toNat % 4) := by
  have hword : digestWordIndex oi = oi.toNat / 4 := Nat.shiftRight_eq_div_pow _ 2
  have hbyte : digestByteIndex oi = oi.toNat % 4 := Nat.and_two_pow_sub_one_eq_mod _ 2
  rw [digestByteAt, hword, hbyte]

@[simp] theorem ser_length (H : DigestWords) : (ser H).length = 20 := rfl

theorem lt_ser_length (H : DigestWords) {n : Nat} (h : n ≤ 19) : n < (ser H).length :=
  Nat.lt_succ_of_le h

/-- R171: byte `n` of `Ser(H)` is byte `n mod 4` of the word `H[n div 4]`. -/
theorem ser_getElem?_eq (H : DigestWords) {n : Nat} (hn : n < 20) :
    (ser H)[n]? = H[n / 4]?.map fun v => BitVec.ofNat 8 (byteOfWord v (n % 4)) := by
  interval_cases n <;> rfl

/-- R170, R171: the byte `POP` reads at `oi` is the byte of `Ser(H)` at that place. -/
theorem digestByteAt_eq_ser_getElem (H : DigestWords) {oi : BitVec 5} (hoi : oi.toNat < (ser H).length) :
    digestByteAt H oi = some (ser H)[oi.toNat].toNat := by
  have hword : oi.toNat / 4 < 5 := by
    rw [ser_length] at hoi
    omega
  have hbyte := ser_getElem?_eq H hoi
  rw [List.getElem?_eq_getElem hoi, Vector.getElem?_eq_getElem hword, Option.map_some, Option.some.injEq] at hbyte
  rw [digestByteAt_eq, Vector.getElem?_eq_getElem hword, Option.map_some, hbyte, BitVec.toNat_ofNat,
    Nat.mod_eq_of_lt (Nat.lt_succ_of_le (byteOfWord_le _ _))]

/-! ### `Ser(H)` as a number -/

/-- R54: four more bytes of a big-endian number are one more word. -/
theorem bigEndian_append_be32 (q : List Byte) (w : Word) :
    bigEndian (q ++ be32 w) = bigEndian q * 2 ^ 32 + w.toNat := by
  have hw := w.isLt
  simp only [bigEndian, be32, byteOfWord_eq, List.foldl_append, List.map_cons, List.map_nil, List.foldl_cons,
    List.foldl_nil, BitVec.toNat_ofNat]
  omega

theorem toNat_append_word {n : Nat} (x : BitVec n) (w : Word) : (x ++ w).toNat = x.toNat * 2 ^ 32 + w.toNat := by
  rw [BitVec.toNat_append, ← Nat.shiftLeft_add_eq_or_of_lt w.isLt, Nat.shiftLeft_eq]

/-- R171: the bytes in order spell the words in order. -/
theorem bigEndian_ser (H : DigestWords) : bigEndian (ser H) = (digest160 H).toNat := by
  have hfirst : bigEndian (be32 H[0]) = H[0].toNat := (bigEndian_append_be32 [] H[0]).trans (Nat.zero_add _)
  simp only [ser, digest160, bigEndian_append_be32, toNat_append_word, hfirst]

/-! ### One `POP` -/

theorem admission_done {s : State} (hp : s.ph = .done) : admission doneAdmitted s = none :=
  (admission_eq_none_iff _ s).mpr (by simp [hp, operating, doneAdmitted])

theorem consumeByte_of_last {s : State} (h : s.oi.toNat = 19) : s.consumeByte = { s with oi := 0, ph := .idle } :=
  if_pos (BitVec.eq_of_toNat_eq h)

theorem consumeByte_of_ne {s : State} (h : s.oi.toNat ≠ 19) : s.consumeByte = { s with oi := s.oi + 1 } :=
  if_neg fun h19 => h (congrArg BitVec.toNat h19)

/-- R170: `POP` in `DONE` answers with the digest byte at `oi` and consumes it. -/
theorem execPop_of_done {s : State} {b : Nat} (hp : s.ph = .done) (hb : digestByteAt s.H s.oi = some b) :
    execPop s = .next (s.consumeByte.respond .ok (BitVec.ofNat 16 b)) := by
  have hcodec : byteToChar b = some (BitVec.ofNat 16 b) :=
    (byteToChar_eq_some_iff b _).mpr ⟨digestByteAt_le s.H s.oi b hb, rfl⟩
  simp only [execPop, admission_done hp, hb, hcodec]

/-- Settles O35: the refusals by phase and, in `DONE`, the byte at `oi`; the twentieth ends the call. -/
theorem popReturnsTheNextByte : Obligations.PopReturnsTheNextByte := by
  intro s
  have hread {v : Word} (hv : s.H[s.oi.toNat / 4]? = some v) :
      digestByteAt s.H s.oi = some (v.toNat / 2 ^ (8 * (3 - s.oi.toNat % 4)) % 256) := by
    rw [digestByteAt_eq, hv, Option.map_some, byteOfWord_eq]
  simp only [exec_eq_execUnder]
  refine ⟨fun hp => refusedWith_capabilityNotBound _ hp nofun (.inr nofun), fun hp => ?refused,
    fun hp v _ hv => ?popped, fun hp hoi hH hf hl => ?response⟩
  case refused =>
    have hop : operating s.ph := hp.imp_right .inl
    exact refusedWith_seqError _ rfl hop (by obtain hp | hp := hp <;> rw [hp] <;> rfl)
  case popped =>
    rw [execUnder, execPop_of_done hp (hread hv)]
    by_cases h19 : s.oi.toNat = 19
    · rw [if_pos h19, consumeByte_of_last h19]
      rfl
    · rw [if_neg h19, consumeByte_of_ne h19]
      rfl
  case response =>
    have hfirst : s.H[s.oi.toNat / 4]? = some 0x67452301#32 := by
      rw [hoi, ← hH]
      exact Vector.getElem?_eq_getElem (by decide)
    have hb : digestByteAt s.H s.oi = some 0x67 := by
      rw [hread hfirst, hoi]
      rfl
    have hne : s.oi.toNat ≠ 19 := by rw [hoi]; decide
    refine ⟨_, execPop_of_done hp hb, ?_⟩
    rw [State.respond_rsp, consumeByte_of_ne hne,
      responseWord_eq (s := { s with oi := s.oi + 1 }) hp (Option.isSome_iff_ne_none.mpr hf) hl]
    rfl

/-! ### The `POP`s that end a call -/

/-- R171: the answer is the byte of `Ser(H)` at `oi`. -/
theorem execUnder_pop_of_done (c : Config) {s : State} (hp : s.ph = .done) (hoi : s.oi.toNat < (ser s.H).length) :
    execUnder c .pop s = .next (s.consumeByte.respond .ok (symOfByte (ser s.H)[s.oi.toNat])) := by
  rw [symOfByte, ← BitVec.ofNat_toNat]
  exact execPop_of_done hp (digestByteAt_eq_ser_getElem s.H hoi)

/-- R171: the `POP`s that are left in a call read the bytes that are left of `Ser(H)`, and end it. -/
theorem trace_pops (c : Config) (n : Nat) {s : State} (hp : s.ph = .done) (hn : s.oi.toNat + n = 19) :
    ∃ rs t, trace c (List.replicate (n + 1) .pop) s = some (rs, t) ∧
      rs.map rspData = ((ser s.H).drop s.oi.toNat).map symOfByte ∧ (∀ r ∈ rs, rspCode r = 0) ∧
      t = { s with oi := 0, ph := .idle, rsp := t.rsp } := by
  induction n generalizing s with
  | zero =>
    rw [Nat.add_zero] at hn
    have hlt := lt_ser_length s.H hn.le
    have hend : (ser s.H).drop (s.oi.toNat + 1) = [] := List.drop_eq_nil_of_le (by rw [ser_length, hn])
    rw [List.replicate_succ, trace_cons_of_next (execUnder_pop_of_done c hp hlt), List.drop_eq_getElem_cons hlt, hend,
      consumeByte_of_last hn]
    refine ⟨_, _, rfl, ?_, ?_, rfl⟩
    · exact congrArg (· :: []) (rspData_responseWord _ _ _)
    · exact List.forall_mem_singleton.mpr (rspCode_responseWord _ _ _)
  | succ n ih =>
    have hlt := lt_ser_length s.H (Nat.le.intro hn)
    let d := symOfByte (ser s.H)[s.oi.toNat]
    let u : State := { s with oi := s.oi + 1, rsp := some (responseWord .ok d s) }
    have hpop : execUnder c .pop s = .next u := by
      rw [execUnder_pop_of_done c hp hlt, consumeByte_of_ne (by omega)]
      rfl
    have hnext : u.oi.toNat = s.oi.toNat + 1 := by
      show (s.oi + 1).toNat = s.oi.toNat + 1
      bv_omega
    obtain ⟨rs, t, htrace, hdata, hcode, ht⟩ := ih (s := u) hp (by omega)
    rw [hnext] at hdata
    refine ⟨responseWord .ok d s :: rs, t, ?_, ?_,
      List.forall_mem_cons.mpr ⟨rspCode_responseWord .ok d s, hcode⟩, ht⟩
    · rw [List.replicate_succ, trace_cons_of_next hpop, htrace]
      rfl
    · rw [List.drop_eq_getElem_cons hlt, List.map_cons, List.map_cons, rspData_responseWord, hdata]

/-- Settles O36: twenty `POP`s from `oi = 0` read all of `Ser(H)`; its bytes and its value are those of `H`. -/
theorem twentyPopsReturnTheDigest : Obligations.TwentyPopsReturnTheDigest := by
  intro c s hp hoi
  refine ⟨?_, fun n hn v hv => ?_, ser_length s.H, bigEndian_ser s.H⟩
  · obtain ⟨rs, t, htrace, hdata, hcode, ht⟩ := trace_pops c 19 hp (by rw [hoi]; rfl)
    rw [hoi] at hdata
    exact ⟨rs, t, htrace, hdata, hcode, hoi ▸ ht⟩
  · rw [ser_getElem?_eq s.H hn, hv, Option.map_some, byteOfWord_eq]

end Sys2Proof.Machine
end

section
/-! PROOFS. A byte stream from a block boundary, block by block (R156, R190, R191): the streaming engine computes what
`Run` computes of the whole buffer. -/

namespace Sys2Proof.Machine

/-! ### The words of a block -/

theorem fedAll_pos_toNat_of_boundary (F : CompressionFn) (p : List Byte) {s : State} (hpos : s.pos = 0) :
    (fedAll F p s).pos.toNat = p.length % 64 := by
  rw [fedAll_pos_toNat, hpos]
  exact congrArg (· % 64) (Nat.zero_add _)

theorem fed_acc (F : CompressionFn) (b : Byte) (s : State) : (fed F b s).acc = (s.acc <<< 8) ||| b.setWidth 32 := by
  obtain ⟨-, -, -, -, -, -, -, -, -, hacc, -⟩ := fed_frame F b s
  exact hacc.trans (packByte_acc b s)

/-- R155, R190: four bytes shift every older bit out of the accumulator and leave the packer's word there. -/
theorem fedAll_four_acc (F : CompressionFn) (b0 b1 b2 b3 : Byte) (s : State) :
    (fedAll F [b0, b1, b2, b3] s).acc = packWord b0 b1 b2 b3 := by
  have hold : s.acc <<< 32 = 0#32 := BitVec.shiftLeft_eq_zero le_rfl
  simp only [fedAll, fed_acc, packWord, BitVec.shiftLeft_or_distrib, ← BitVec.shiftLeft_add, Nat.reduceAdd, hold,
    BitVec.zero_or]

theorem wordAt_append_left {p : List Byte} (q : List Byte) {k : Nat} (h : 4 * k + 3 < p.length) :
    wordAt (p ++ q) k = wordAt p k := by
  simp (disch := omega) only [wordAt, List.getD_append]

theorem wordAt_append_four {p : List Byte} {n : Nat} (hp : p.length = 4 * n) (b0 b1 b2 b3 : Byte) :
    wordAt (p ++ [b0, b1, b2, b3]) n = packWord b0 b1 b2 b3 := by
  simp [wordAt, hp]

theorem exists_append_four {p : List Byte} {n : Nat} (hp : p.length = 4 * (n + 1)) :
    ∃ q b0 b1 b2 b3, q.length = 4 * n ∧ p = q ++ [b0, b1, b2, b3] := by
  have hlast : (p.drop (4 * n)).length = 4 := by rw [List.length_drop, hp]; omega
  obtain ⟨b0, b1, b2, b3, hdrop⟩ := List.length_eq_four.mp hlast
  exact ⟨p.take (4 * n), b0, b1, b2, b3, List.length_take_of_le (by omega), by rw [← hdrop, List.take_append_drop]⟩

/-- R154, R156: a stream of whole words from a block boundary leaves each of them in its slot. -/
theorem fedAll_W_of_words (F : CompressionFn) (n : Nat) {p : List Byte} {s : State} (hpos : s.pos = 0)
    (hp : p.length = 4 * n) (hn : n ≤ 16) (k : Nat) (hk : k < n) :
    (fedAll F p s).W[k] = wordAt p k := by
  induction n generalizing p with
  | zero => exact absurd hk (Nat.not_lt_zero k)
  | succ n ih =>
    obtain ⟨q, b0, b1, b2, b3, hq, rfl⟩ := exists_append_four hp
    have hslot : (fedAll F q s).pos.toNat = 4 * n := by
      rw [fedAll_pos_toNat_of_boundary F q hpos, hq]
      exact Nat.mod_eq_of_lt (by omega)
    simp only [fedAll_append]
    rw [fedAll_four_W_getElem F b0 b1 b2 b3 hslot k (by omega)]
    split
    case isTrue hlast => rw [fedAll_four_acc, hlast, wordAt_append_four hq]
    case isFalse hne =>
      have hlt : k < n := by omega
      rw [ih hq (by omega) hlt, wordAt_append_left _ (by omega)]

/-! ### Whole blocks -/

theorem sched_getElem (q : List Byte) (k : Nat) (hk : k < 16) : (sched q)[k] = wordAt q k := by
  interval_cases k <;> rfl

/-- R156: a block from a block boundary leaves its own schedule in `W`. -/
theorem fedAll_W_of_block (F : CompressionFn) {q : List Byte} {s : State} (hpos : s.pos = 0) (hq : q.length = 64) :
    (fedAll F q s).W = sched q :=
  Vector.ext fun k hk => (fedAll_W_of_words F 16 hpos hq le_rfl k hk).trans (sched_getElem q k hk).symm

/-- R156: the block is compressed once, with its own schedule. -/
theorem fedAll_H_of_block (F : CompressionFn) {q : List Byte} {s : State} (hpos : s.pos = 0) (hq : q.length = 64) :
    (fedAll F q s).H = F s.H (sched q) := by
  have hblock : s.pos.toNat + q.length = 64 := by
    rw [hpos, hq]
    rfl
  rw [fedAll_H_of_eq F hblock, fedAll_W_of_block F hpos hq]

theorem fedAll_pos_of_blocks (F : CompressionFn) {p : List Byte} {s : State} (hpos : s.pos = 0)
    (hp : 64 ∣ p.length) : (fedAll F p s).pos = 0 :=
  BitVec.eq_of_toNat_eq ((fedAll_pos_toNat_of_boundary F p hpos).trans (Nat.mod_eq_zero_of_dvd hp))

theorem fedAll_H_of_firstBlocks (F : CompressionFn) (n : Nat) {p : List Byte} {s : State} (hpos : s.pos = 0)
    (hp : p.length = 64 * n) :
    (fedAll F p s).H = (firstBlocks n p).foldl (fun S q => F S (sched q)) s.H := by
  induction n generalizing p s with
  | zero =>
    rw [List.eq_nil_of_length_eq_zero hp]
    rfl
  | succ n ih =>
    have hfirst : (p.take 64).length = 64 := List.length_take_of_le (by omega)
    have hrest : (p.drop 64).length = 64 * n := by rw [List.length_drop, hp]; omega
    have hnext := fedAll_pos_of_blocks F hpos (dvd_of_eq hfirst.symm)
    calc (fedAll F p s).H = (fedAll F (p.drop 64) (fedAll F (p.take 64) s)).H := by
          rw [← fedAll_append, List.take_append_drop]
      _ = (firstBlocks n (p.drop 64)).foldl (fun S q => F S (sched q)) (F s.H (sched (p.take 64))) := by
          rw [ih hnext hrest, fedAll_H_of_block F hpos hfirst]
      _ = (firstBlocks (n + 1) p).foldl (fun S q => F S (sched q)) s.H := rfl

/-- R191: a stream of whole blocks, fed byte by byte from a block boundary, computes `Run`. -/
theorem fedAll_H_eq_run (F : CompressionFn) {p : List Byte} {s : State} (hpos : s.pos = 0) (hp : 64 ∣ p.length) :
    (fedAll F p s).H = run F s.H p :=
  fedAll_H_of_firstBlocks F (p.length / 64) hpos (Nat.mul_div_cancel' hp).symm

end Sys2Proof.Machine
end

section
/-! PROOFS. Whole calls (R193 to R197): a call on a bound engine computes `digest(F, IV, m)`, and a call that does not
complete returns no byte of it. -/

namespace Sys2Proof.Machine

/-! ### The commands of a call, R193 -/

theorem call_eq (m : List Byte) :
    call m = ([.start .string] ++ m.map (fun b => .push (symOfByte b)) ++ [.final]) ++ List.replicate 20 .pop := by
  simp only [call, callSyms, List.map_map, Function.comp_def]

theorem callSyms_append_cons (good : List Byte) (bad : Sym) (rest : List Sym) :
    callSyms (good.map symOfByte ++ bad :: rest) = ([.start .string] ++ good.map fun b => .push (symOfByte b)) ++
      .push bad :: (rest.map .push ++ [.final] ++ List.replicate 20 .pop) := by
  simp [callSyms]

theorem callSyms_length (syms : List Sym) : (callSyms syms).length = syms.length + 22 := by
  simp [callSyms]

/-! ### A call that completes -/

/-- R195, up to the first `POP`: the engine has fed `Pad(m)` and holds `Run(F, IV, Pad(m))`. -/
theorem trace_start_pushes_final {c : Config} {F : CompressionFn} {m : List Byte} {s : State} (hop : operating s.ph)
    (hF : boundFn c s = some F) (hle : m.length ≤ 2 ^ 61 - 1) :
    ∃ u v t : State, trace c ([.start .string] ++ m.map (fun b => .push (symOfByte b)) ++ [.final]) s =
        some (List.replicate (m.length + 1) (responseWord .ok 0 u) ++ [responseWord .ok 0 v], t) ∧
      t.ph = .done ∧ t.oi = 0 ∧ t.H = run F c.iv (pad m) ∧ t.lerr = .ok ∧ t.fn = s.fn := by
  obtain ⟨rsp, habsorb⟩ := trace_start_pushes hop hF hle
  have hfinal := execUnder_final_after_message (s := s.beginCall c.iv) (rsp := rsp) hF hle rfl rfl rfl
  have htrace := trace_append c ([.start .string] ++ m.map fun b => .push (symOfByte b)) [.final] s
  rw [habsorb, Option.bind_some, trace_cons_of_next hfinal] at htrace
  obtain ⟨-, hoi, -, hfn, hlerr, -⟩ := fedAll_frame F (pad m) (s.beginCall c.iv)
  have hH := fedAll_H_eq_run F (s := s.beginCall c.iv) rfl ⟨_, pad_length_eq_mul m⟩
  exact ⟨_, _, _, htrace, rfl, hoi, hH, hlerr, hfn⟩

/-- Settles O53: the twenty `POP`s read `Ser` of the State that `START`, the pushes and `FINAL` leave. -/
theorem callComputesTheDigest : Obligations.CallComputesTheDigest := by
  intro c F m s hop hF hle
  obtain ⟨u, v, t, habsorb, hph, hoi, hH, hlerr, hfn⟩ := trace_start_pushes_final hop hF hle
  obtain ⟨⟨pops, t', hpops, hdata, hcode, ht'⟩, -⟩ := twentyPopsReturnTheDigest c t hph hoi
  have htrace : trace c (call m) s = some
      (List.replicate (m.length + 1) (responseWord .ok 0 u) ++ [responseWord .ok 0 v] ++ pops, t') := by
    rw [call_eq, trace_append, habsorb, Option.bind_some, hpops]
    rfl
  have hcount : pops.length = 20 := by simpa using congrArg List.length hdata
  refine ⟨_, t', htrace, by simp [hcount], ?codes, ?data, ?_, ?_, ?_⟩
  case codes =>
    simp only [List.forall_mem_append, List.forall_mem_singleton]
    exact ⟨⟨fun r hr => List.eq_of_mem_replicate hr ▸ rspCode_responseWord .ok 0 u, rspCode_responseWord .ok 0 v⟩,
      hcode⟩
  case data =>
    rw [List.drop_left' (by simp), hdata, hH]
    rfl
  all_goals rw [ht']
  · exact hlerr
  · exact hfn

/-! ### Calls that do not complete -/

/-- R212: a sequence of commands that are all refused with `e` gives `e` every time and does nothing. -/
theorem trace_of_refused (c : Config) {is : List Instr} {s : State} {e : Code} (h : ∀ i ∈ is, refusedWith c i s e) :
    ∃ rsp, trace c is s = some (List.replicate is.length (responseWord e 0 s), { s with rsp := rsp }) := by
  induction is with
  | nil => exact ⟨s.rsp, rfl⟩
  | cons i is ih =>
    obtain ⟨hi, his⟩ := List.forall_mem_cons.mp h
    obtain ⟨rsp, hrest⟩ := ih his
    cases is with
    | nil => exact ⟨_, trace_cons_of_next hi []⟩
    | cons j js => exact ⟨rsp, by rw [trace_cons_of_refused c hi, hrest]; rfl⟩

/-- R209, step 5: after an abort every command of the call but `START` is out of order. -/
theorem refusedWith_of_idle (c : Config) {i : Instr} {p : Phase → Bool} {s : State} (hi : admittedBy i = some p)
    (hp : s.ph = .idle) (hidle : p .idle = false) : refusedWith c i s .seqError :=
  refusedWith_seqError c hi (.inl hp) (hp ▸ hidle)

/-- R197: what is left of a call after one of its `PUSH`es is refused, command by command, in `IDLE`. -/
theorem trace_rest_of_aborted_call (c : Config) (rest : List Sym) {s : State} (hp : s.ph = .idle) :
    ∃ rsp, trace c (rest.map .push ++ [.final] ++ List.replicate 20 .pop) s =
      some (List.replicate (rest.length + 21) (responseWord .seqError 0 s), { s with rsp := rsp }) := by
  have hrefused : ∀ i ∈ rest.map .push ++ [.final] ++ List.replicate 20 .pop, refusedWith c i s .seqError := by
    simp only [List.forall_mem_append, List.forall_mem_map, List.forall_mem_singleton, List.mem_replicate]
    exact ⟨⟨fun _ _ => refusedWith_of_idle c rfl hp rfl, refusedWith_of_idle c rfl hp rfl⟩,
      fun i hi => hi.2 ▸ refusedWith_of_idle c rfl hp rfl⟩
  obtain ⟨rsp, h⟩ := trace_of_refused c hrefused
  exact ⟨rsp, by rw [h]; simp⟩

/-- R197: a first bad symbol ends the call where it stands: OK to each command before it, `RangeError` to it and
`SeqError` to each command after it. -/
theorem trace_call_with_bad_symbol {c : Config} {F : CompressionFn} {good : List Byte} {bad : Sym} (rest : List Sym)
    {s : State} (hop : operating s.ph) (hF : boundFn c s = some F) (hle : good.length ≤ 2 ^ 61 - 1)
    (hbad : 255 < bad.toNat) :
    ∃ t u v w : State, trace c (callSyms (good.map symOfByte ++ bad :: rest)) s =
      some (List.replicate (good.length + 1) (responseWord .ok 0 t) ++ responseWord .rangeError 0 u ::
        List.replicate (rest.length + 21) (responseWord .seqError 0 v), w) ∧ w.ph = .idle ∧ w.lerr = .rangeError := by
  obtain ⟨rsp, habsorb⟩ := trace_start_pushes hop hF hle
  let absorbed := (fedAll F good (s.beginCall c.iv)).withCount (BitVec.ofNat 61 good.length) rsp
  obtain ⟨-, -, hph, -⟩ := fedAll_frame F good (s.beginCall c.iv)
  have habort : execUnder c (.push bad) absorbed = .next (takeError .abort .rangeError absorbed) :=
    abortedWith_push_rangeError c hph hbad
  obtain ⟨rsp', hrest⟩ := trace_rest_of_aborted_call c rest (s := takeError .abort .rangeError absorbed) rfl
  have htrace := trace_append c ([.start .string] ++ good.map fun b => .push (symOfByte b))
    (.push bad :: (rest.map .push ++ [.final] ++ List.replicate 20 .pop)) s
  rw [habsorb, Option.bind_some, trace_cons_of_next habort, hrest, ← callSyms_append_cons] at htrace
  exact ⟨_, _, _, _, htrace, rfl, rfl⟩

/-- R197: without a capability every command of a call is refused. -/
theorem trace_call_without_capability (c : Config) (syms : List Sym) {s : State} (hp : s.ph = .unbound ∨ s.ph = .dead) :
    ∃ rsp, trace c (callSyms syms) s =
      some (List.replicate (syms.length + 22) (responseWord .capabilityNotBound 0 s), { s with rsp := rsp }) := by
  have hrefused : ∀ i ∈ callSyms syms, refusedWith c i s .capabilityNotBound := by
    intro i hi
    have hstat : i ≠ .stat := by
      rintro rfl
      simp [callSyms] at hi
    have hbind (fid : BitVec 8) : i ≠ .bind fid := by
      rintro rfl
      simp [callSyms] at hi
    exact refusedWith_capabilityNotBound c hp hstat (.inr hbind)
  rw [← callSyms_length]
  exact trace_of_refused c hrefused

/-- Settles O54: each command of such a call is aborted or refused, with `data` 0. -/
theorem incompleteCallsReturnNoDigest : Obligations.IncompleteCallsReturnNoDigest := by
  refine ⟨fun c _ _ => abortedWith_start c, fun c F good bad rest s hop hF hlt hbad => ?badSymbol,
    fun c syms s hp => ?noCapability⟩
  case badSymbol =>
    obtain ⟨t, u, v, w, htrace, hph, hlerr⟩ := trace_call_with_bad_symbol rest hop hF hlt.le hbad
    refine ⟨_, w, htrace, ?_, ?_, hph, hlerr⟩
    · simp [rspCode_responseWord]
    · simp [rspData_responseWord]
  case noCapability =>
    obtain ⟨rsp, htrace⟩ := trace_call_without_capability c syms hp
    refine ⟨_, _, htrace, ?_, ?_, rfl⟩
    · simp [rspCode_responseWord]
    · simp [rspData_responseWord]

end Sys2Proof.Machine
end

section
/-! PROOFS. Errors (60_exceptions.md): which code a command word is answered with (R209), and what an answer of each class
of R210 does to the engine (R206, R211 to R215). -/

namespace Sys2Proof.Machine

/-- Settles O8: an illegal word leaves the port and is answered, and nothing else happens. -/
theorem illegalWordsChangeNothing : Obligations.IllegalWordsChangeNothing :=
  fun _ _ _ _ => step_of_illegal

/-! ### The order of the checks, R209 -/

/-- The command is answered, and the code field of the response is `n`. -/
def AnsweredWith (c : Config) (i : Instr) (s : State) (n : BitVec 4) : Prop :=
  ∃ t r, execUnder c i s = .next t ∧ t.rsp = some r ∧ rspCode r = n

theorem AnsweredWith.of_respond {c : Config} {i : Instr} {s u : State} {e : Code} {d : Sym}
    (h : execUnder c i s = .next (u.respond e d)) : AnsweredWith c i s e.bits :=
  ⟨_, _, h, rfl, rspCode_responseWord e d u⟩

theorem AnsweredWith.of_refused {c : Config} {i : Instr} {s : State} {e : Code} (h : refusedWith c i s e) :
    AnsweredWith c i s e.bits :=
  .of_respond (u := s) h

theorem AnsweredWith.of_aborted {c : Config} {i : Instr} {s : State} {e : Code} (h : abortedWith c i s e) :
    AnsweredWith c i s e.bits :=
  .of_respond (u := s.latch e .idle) h

theorem AnsweredWith.of_accepted {c : Config} {i : Instr} {s : State} {p : Phase} (h : acceptedInto c i s p) :
    AnsweredWith c i s Code.ok.bits := by
  obtain ⟨t, r, ht, hr, hcode, -⟩ := h
  exact ⟨t, r, ht, hr, hcode⟩

/-- R209, step 4: in `UNBOUND` the table decides about `BIND`. -/
theorem answeredWith_bind_of_unbound (c : Config) (fid : BitVec 8) {s : State} (hp : s.ph = .unbound) :
    AnsweredWith c (.bind fid) s (if (fnTable c fid).isSome then Code.ok.bits else Code.capabilityNotBound.bits) := by
  cases hf : fnTable c fid with
  | some F => exact .of_respond (execUnder_bind_defined hp (by simp [hf]))
  | none => exact .of_respond (execUnder_bind_undefined hp hf)

theorem answeredWith_start_of_operating (c : Config) (kind : Kind) {s : State} (hop : operating s.ph) :
    AnsweredWith c (.start kind) s (if kind = .string then Code.ok.bits else Code.typeMismatch.bits) := by
  split
  case isTrue hk => exact hk ▸ .of_accepted (acceptedInto_start c hop)
  case isFalse hk => exact .of_aborted (abortedWith_start c hop hk)

theorem absorbAdmitted_eq_false {p : Phase} (h : p ≠ .absorb) : absorbAdmitted p = false := beq_eq_false_iff_ne.mpr h

theorem doneAdmitted_eq_false {p : Phase} (h : p ≠ .done) : doneAdmitted p = false := beq_eq_false_iff_ne.mpr h

/-- R209, steps 5 and 6: the phase, then the range of the symbol, then the length. -/
theorem answeredWith_push_of_operating {c : Config} (sym : Sym) {s : State} (hinv : Inv c s) (hop : operating s.ph) :
    AnsweredWith c (.push sym) s
      (if s.ph ≠ .absorb then Code.seqError.bits else if 255 < sym.toNat then Code.rangeError.bits
        else if s.len.toNat = 2 ^ 61 - 1 then Code.lenOverflow.bits else Code.ok.bits) := by
  obtain ⟨F, hF⟩ := hinv.boundFn_eq_some hop
  split_ifs with hp hs hl
  · exact .of_refused (refusedWith_seqError c rfl hop (absorbAdmitted_eq_false hp))
  all_goals rw [not_not] at hp
  · exact .of_aborted (abortedWith_push_rangeError c hp hs)
  · exact .of_aborted (abortedWith_push_lenOverflow c hp (Nat.not_lt.mp hs) hl)
  · exact .of_accepted (acceptedInto_push hF hp (Nat.not_lt.mp hs) hl)

theorem answeredWith_final_of_operating {c : Config} {s : State} (hinv : Inv c s) (hop : operating s.ph) :
    AnsweredWith c .final s (if s.ph = .absorb then Code.ok.bits else Code.seqError.bits) := by
  obtain ⟨F, hF⟩ := hinv.boundFn_eq_some hop
  split
  case isTrue hp => exact .of_accepted (acceptedInto_final hF hp)
  case isFalse hp => exact .of_refused (refusedWith_seqError c rfl hop (absorbAdmitted_eq_false hp))

theorem answeredWith_pop_of_operating {c : Config} {s : State} (hinv : Inv c s) (hop : operating s.ph) :
    AnsweredWith c .pop s (if s.ph = .done then Code.ok.bits else Code.seqError.bits) := by
  split
  case isTrue hp => exact .of_accepted (acceptedInto_pop c hp (hinv.done_oi hp))
  case isFalse hp => exact .of_refused (refusedWith_seqError c rfl hop (doneAdmitted_eq_false hp))

theorem operating_of_ne {p : Phase} (hu : p ≠ .unbound) (hd : p ≠ .dead) : operating p := by
  cases p <;> simp_all [operating]

/-- The invariant does not speak of the host's queue. -/
theorem Inv.withInputs {c : Config} {s : State} (h : Inv c s) (rest : List HostEvent) :
    Inv c { s with inputs := rest } :=
  ⟨h.bound_iff, h.fn_defined, h.absorb_pos, h.absorb_oi, h.done_pos, h.done_oi, h.dead_lerr, h.clean_lerr, h.latched⟩

/-- Settles O39: the phase decides first, then the command's own checks in their order. -/
theorem errorPriority : Obligations.ErrorPriority := by
  intro s w rest hinv hs
  cases hd : decode w with
  | illegal why => exact ⟨_, _, step_of_illegal hs hd, rfl, rspCode_responseWord _ _ _⟩
  | command i =>
    rw [step_of_command hs hd]
    have hinv' := hinv.withInputs rest
    by_cases hstat : i = .stat
    · simp only [if_pos hstat]
      exact hstat ▸ AnsweredWith.of_refused (refusedWith_stat Config.platform _)
    by_cases hdead : s.ph = .dead
    · simp only [if_neg hstat, if_pos hdead]
      exact AnsweredWith.of_refused (refusedWith_of_dead _ hdead hstat)
    by_cases hunbound : s.ph = .unbound
    · simp only [if_neg hstat, if_neg hdead, if_pos hunbound]
      cases i with
      | bind fid => exact answeredWith_bind_of_unbound _ fid hunbound
      | stat => exact absurd rfl hstat
      | start | push | final | pop =>
        exact AnsweredWith.of_refused (refusedWith_capabilityNotBound _ (.inl hunbound) nofun (.inr nofun))
    · simp only [if_neg hstat, if_neg hdead, if_neg hunbound]
      have hop : operating s.ph := operating_of_ne hunbound hdead
      cases i with
      | bind fid => exact AnsweredWith.of_refused (refusedWith_bind_of_operating _ fid hop)
      | start kind => exact answeredWith_start_of_operating _ kind hop
      | push sym => exact answeredWith_push_of_operating sym hinv' hop
      | final => exact answeredWith_final_of_operating hinv' hop
      | pop => exact answeredWith_pop_of_operating hinv' hop
      | stat => exact absurd rfl hstat

/-! ### The classes of errors, R210 to R213 -/

/-- The codes of the abort class, R211. -/
def Code.aborts (e : Code) : Prop := e = .typeMismatch ∨ e = .rangeError ∨ e = .lenOverflow

/-- The state after a command, by the class of its answer (R210): a success, which leaves `lerr` as it was but for `START`
(R215), or an error with the effects of its class. -/
inductive AnswerClass (i : Instr) (s : State) : State → Prop where
  | success (u : State) (d : Sym) (hl : u.lerr = if i = .start .string then .ok else s.lerr)
      (hop : i = .start .string → operating s.ph) : AnswerClass i s (u.respond .ok d)
  | refusal (e : Code) (he : e = .seqError ∨ e = .capabilityNotBound ∧ (s.ph = .dead ∨ ∀ fid, i ≠ .bind fid)) :
      AnswerClass i s (takeError .refusal e s)
  | abort (e : Code) (he : e.aborts) : AnswerClass i s (takeError .abort e s)
  | fatal (fid : BitVec 8) (hi : i = .bind fid) (hp : s.ph = .unbound) :
      AnswerClass i s (takeError .fatal .capabilityNotBound s)

/-- R210: every answer belongs to a class. -/
theorem execUnder_answerClass {c : Config} {i : Instr} {s t : State} (h : execUnder c i s = .next t) :
    AnswerClass i s t := by
  have ho := execUnder_outcome c i s
  rw [h] at ho
  cases ho with
  | status hi => exact .success s 0 (by simp [hi]) (by simp [hi])
  | unbound _ _ hb => exact .refusal _ (.inr ⟨rfl, hb⟩)
  | sequence => exact .refusal _ (.inl rfl)
  | aborted e he => exact .abort e (he.imp And.left (Or.imp And.left And.left))
  | died fid hi hp => exact .fatal fid hi hp
  | constructed fid hi => exact .success _ 0 (by simp [hi]) (by simp [hi])
  | started hi hp => exact .success _ 0 (by simp [hi]) fun _ => hp
  | absorbed sym u hi _ _ _ hf =>
    obtain ⟨-, -, -, -, hl, -⟩ := feed_frame c _ s u hf
    exact .success _ 0 (by simp [hi, hl]) (by simp [hi])
  | padded u hi _ hf =>
    obtain ⟨-, -, -, -, hl, -⟩ := feedAll_frame c _ s u hf
    exact .success _ 0 (by simp [hi, hl]) (by simp [hi])
  | popped b hi =>
    obtain ⟨-, -, -, -, -, -, hl, -⟩ := consumeByte_frame s
    exact .success _ _ (by simp [hi, hl]) (by simp [hi])

/-! ### From the code of the answer to its class -/

/-- R200: no two codes have one number. -/
theorem Code.bits_inj {e f : Code} : e.bits = f.bits ↔ e = f := by
  cases e <;> cases f <;> decide

/-- R86, R200: the code field of the response tells the code. -/
theorem code_eq_of_rspCode {u : State} {e f : Code} {d : Sym} {r : Word} (hr : (u.respond e d).rsp = some r)
    (hcode : rspCode r = f.bits) : e = f := by
  cases hr
  rwa [rspCode_responseWord, Code.bits_inj] at hcode

section
variable {i : Instr} {s t : State} {r : Word}

theorem AnswerClass.eq_abort {e : Code} (h : AnswerClass i s t) (hr : t.rsp = some r) (he : e.aborts)
    (hcode : rspCode r = e.bits) : t = takeError .abort e s := by
  cases h with
  | success u d => cases code_eq_of_rspCode hr hcode; simp [Code.aborts] at he
  | refusal f hf => cases code_eq_of_rspCode hr hcode; obtain rfl | ⟨rfl, -⟩ := hf <;> simp [Code.aborts] at he
  | abort f => cases code_eq_of_rspCode hr hcode; rfl
  | fatal => cases code_eq_of_rspCode hr hcode; simp [Code.aborts] at he

/-- R212: `CapabilityNotBound` is a refusal unless a `BIND` in `UNBOUND` gets it. -/
theorem AnswerClass.eq_refusal {e : Code} (h : AnswerClass i s t) (hr : t.rsp = some r)
    (he : e = .seqError ∨ e = .illegalCmd ∨ e = .capabilityNotBound ∧ (s.ph = .dead ∨ ∀ fid, i ≠ .bind fid))
    (hcode : rspCode r = e.bits) : t = takeError .refusal e s := by
  cases h with
  | success u d => cases code_eq_of_rspCode hr hcode; simp at he
  | refusal f => cases code_eq_of_rspCode hr hcode; rfl
  | abort f hf => cases code_eq_of_rspCode hr hcode; obtain rfl | rfl | rfl := hf <;> simp at he
  | fatal fid hi hp => cases code_eq_of_rspCode hr hcode; simp [hi, hp] at he

theorem AnswerClass.eq_fatal {fid : BitVec 8} (h : AnswerClass (.bind fid) s t) (hr : t.rsp = some r)
    (hp : s.ph = .unbound) (hcode : rspCode r = Code.capabilityNotBound.bits) :
    t = takeError .fatal .capabilityNotBound s := by
  cases h with
  | success u d => cases code_eq_of_rspCode hr hcode
  | refusal f hf => cases code_eq_of_rspCode hr hcode; simp [hp] at hf
  | abort f hf => cases code_eq_of_rspCode hr hcode; simp [Code.aborts] at hf
  | fatal => rfl

theorem AnswerClass.lerr_of_ok (h : AnswerClass i s t) (hr : t.rsp = some r) (hcode : rspCode r = Code.ok.bits) :
    t.lerr = if i = .start .string then .ok else s.lerr := by
  cases h with
  | success u d hl => exact hl
  | refusal f hf => cases code_eq_of_rspCode hr hcode; simp at hf
  | abort f hf => cases code_eq_of_rspCode hr hcode; simp [Code.aborts] at hf
  | fatal => cases code_eq_of_rspCode hr hcode

end

/-- Settles O40: the code in the response gives the class of the answer, and the class its effects. -/
theorem errorsHaveOnlyTheirClassEffects : Obligations.ErrorsHaveOnlyTheirClassEffects := by
  intro c i s t r ht hr
  have hclass := execUnder_answerClass ht
  refine ⟨fun e he hcode => ?abort, fun hcode => ?refusal, fun hcode hp ⟨fid, hi⟩ => ?fatal⟩
  case abort =>
    obtain rfl := hclass.eq_abort hr he hcode
    cases hr
    exact ⟨rfl, rspData_responseWord _ _ _⟩
  case refusal =>
    have ⟨e, he⟩ : ∃ e, t = takeError .refusal e s := by
      obtain hcode | hcode | ⟨hcode, hb⟩ := hcode
      · exact ⟨_, hclass.eq_refusal hr (.inl rfl) hcode⟩
      · exact ⟨_, hclass.eq_refusal hr (.inr (.inl rfl)) hcode⟩
      · exact ⟨_, hclass.eq_refusal hr (.inr (.inr ⟨rfl, hb⟩)) hcode⟩
    subst he
    cases hr
    exact ⟨rfl, rspData_responseWord _ _ _⟩
  case fatal =>
    subst hi
    obtain rfl := hclass.eq_fatal hr hp hcode
    cases hr
    refine ⟨rfl, fun hf => ?_⟩
    rw [responseWord_eq (s.latch_ph _ .dead) (congrArg Option.isSome hf) (s.latch_lerr .capabilityNotBound _)]
    rfl

/-! ### The latched error, R215 -/

/-- Settles O46: only a reset event, an accepted `START`, an abort and the failed construction write `lerr`. -/
theorem latchedErrorChangesOnlyAsSaid : Obligations.LatchedErrorChangesOnlyAsSaid := by
  refine ⟨fun s t ht hne => ?change, fun s t w r rest hs ht hr => ?value⟩
  case change =>
    obtain ⟨-, h⟩ | ⟨rest, hs, h⟩ | ⟨w, rest, why, -, -, h⟩ | ⟨w, rest, i, hs, hd, h⟩ := step_cases s
    all_goals rw [h] at ht
    · cases ht
      exact absurd rfl hne
    · cases ht
      exact .inl ⟨rest, hs, rfl⟩
    · cases ht
      exact absurd rfl hne
    · have hclass := execUnder_answerClass ht
      cases hclass with
      | success u d hl hop =>
        split at hl
        case isTrue hi =>
          exact .inr ⟨w, rest, _, hs, rfl, .inl ⟨hi ▸ hd, hop hi, hl, rspCode_responseWord _ _ _⟩⟩
        case isFalse => exact absurd hl hne
      | refusal e => exact absurd rfl hne
      | abort e he => exact .inr ⟨w, rest, _, hs, rfl, .inr (.inl ⟨rspCode_responseWord _ _ _, he⟩)⟩
      | fatal fid hi hp =>
        exact .inr ⟨w, rest, _, hs, rfl, .inr (.inr ⟨⟨fid, hi ▸ hd⟩, hp, rfl, rspCode_responseWord _ _ _⟩)⟩
  case value =>
    cases hd : decode w with
    | illegal why =>
      rw [step_of_illegal hs hd] at ht
      cases ht
      refine ⟨fun e he hcode => ?_, fun _ => rfl, nofun, nofun⟩
      cases code_eq_of_rspCode (u := { s with inputs := rest }) (e := .illegalCmd) (d := 0) hr hcode
      simp at he
    | command i =>
      rw [step_of_command hs hd] at ht
      have hclass := execUnder_answerClass ht
      refine ⟨fun e he hcode => ?_, ?_, fun hi hcode => ?_, fun fid hi hcode => ?_⟩
      · rw [hclass.eq_abort hr he hcode]
        rfl
      · rintro (hcode | hcode)
        · rw [hclass.eq_refusal hr (.inl rfl) hcode]
          rfl
        · rw [hclass.eq_refusal hr (.inr (.inl rfl)) hcode]
          rfl
      all_goals
        cases hi
        exact hclass.lerr_of_ok hr hcode

end Sys2Proof.Machine
end

section
/-! PROOFS. Command words and the words of the pseudo-commands (R81 to R97). -/

namespace Sys2Proof

/-- Settles O1: each format reads back its opcode, its reserved bits and its operand. -/
theorem encodedCommandsDecodeBack : Obligations.EncodedCommandsDecodeBack :=
  fun _ => decode_encode

/-- Settles O2: the fields of a word that decodes, put together again, are the word. -/
theorem decodedWordsEncodeBack : Obligations.DecodedWordsEncodeBack :=
  fun _ _ => wellFormed_and_encode_of_decode

/-- Settles O6: ten words, evaluated. -/
theorem sampleWordsDecode : Obligations.SampleWordsDecode := by
  unfold Obligations.SampleWordsDecode
  decide

end Sys2Proof

namespace Sys2Proof.Machine

theorem words_digestText (m : List Byte) : (ScriptLine.digestText m).words = (call m).map encode := by
  simp only [ScriptLine.words, call_eq, pushsOf, popallOf]

theorem words_popall : ScriptLine.popall.words = List.replicate 20 0x50000000#32 :=
  List.map_replicate

/-- Settles O57: `DIGEST` stands for the commands of the call, and its `PUSH`es and `POP`s are those of `PUSHS` and
`POPALL`. -/
theorem digestPseudoCommandIsTheCall : Obligations.DigestPseudoCommandIsTheCall :=
  fun m => ⟨words_digestText m, by simp only [ScriptLine.words, List.map_append]; rfl, words_popall⟩

end Sys2Proof.Machine
end

section
/-! PROOFS. One step by the event presented (R80, R240; log 8). -/

namespace Sys2Proof.Machine

/-- Settles O7: the word leaves the port, is decoded and executed. -/
theorem stepRunsThePresentedCommand : Obligations.StepRunsThePresentedCommand :=
  fun _ _ i _ hs hd => (step_of_command hs hd).trans (exec_eq_execUnder i _).symm

/-- Settles O9: the reset event writes the specified registers, whatever they held. -/
theorem resetEventUndoesConstruction : Obligations.ResetEventUndoesConstruction := by
  intro s rest hs
  obtain ⟨hph, hfn, hlerr, hrsp, hinputs, -⟩ := resetEvent_defined { s with inputs := rest }
  exact ⟨_, step_of_reset hs, hph, hfn, hlerr, hrsp, hinputs⟩

/-- Settles O10: the word of `STAT`, executed in `State.reset`. -/
theorem firstStatAfterResetReadsZero : Obligations.FirstStatAfterResetReadsZero :=
  ⟨rfl, rfl, rfl, _, step_of_command rfl (decode_encode (i := .stat) rfl), rfl⟩

/-- Settles O11: with an empty queue there is no event to take. -/
theorem nothingPresentedNothingDone : Obligations.NothingPresentedNothingDone := by
  intro s hs
  rw [step, nextEvent_nil s hs]
  rfl

/-- Settles O12: each arm of `exec` is its parametric form at the platform. -/
theorem execIsTheEngineAtThePlatform : Obligations.ExecIsTheEngineAtThePlatform :=
  exec_eq_execUnder

end Sys2Proof.Machine
end

section
/-! PROOFS. What each command may write (10_state.md section 1), and what follows for `fn`, `oi` and the modes (R35,
R38 (d), R217). -/

namespace Sys2Proof.Machine

/-! ### A step that goes on -/

/-- The next state of a step, by the event presented. -/
theorem step_next_cases {s t : State} (ht : step s = .next t) :
    (s.inputs = [] ∧ t = s.silent) ∨
    (∃ rest, s.inputs = .reset :: rest ∧ t = resetEvent { s with inputs := rest }) ∨
    (∃ w rest why, s.inputs = .command w :: rest ∧ decode w = .illegal why ∧
      t = answerIllegal { s with inputs := rest }) ∨
    (∃ w rest i, s.inputs = .command w :: rest ∧ decode w = .command i ∧
      execUnder Config.platform i { s with inputs := rest } = .next t) := by
  obtain ⟨hs, h⟩ | ⟨rest, hs, h⟩ | ⟨w, rest, why, hs, hd, h⟩ | ⟨w, rest, i, hs, hd, h⟩ := step_cases s
  all_goals rw [h] at ht
  · cases ht
    exact .inl ⟨hs, rfl⟩
  · cases ht
    exact .inr (.inl ⟨rest, hs, rfl⟩)
  · cases ht
    exact .inr (.inr (.inl ⟨w, rest, why, hs, hd, rfl⟩))
  · exact .inr (.inr (.inr ⟨w, rest, i, hs, hd, ht⟩))

/-! ### The access matrix of R23 -/

/-- The registers the command `i` leaves alone between `s` and `t`. -/
structure KeepsOtherRegisters (i : Instr) (s t : State) : Prop where
  inputs : t.inputs = s.inputs
  resets : t.resets = s.resets
  fn : (∀ fid, i ≠ .bind fid) → t.fn = s.fn
  call : (∃ fid, i = .bind fid) ∨ i = .pop ∨ i = .stat →
    t.H = s.H ∧ t.W = s.W ∧ t.acc = s.acc ∧ t.len = s.len ∧ t.pos = s.pos
  len : i = .final → t.len = s.len
  oi : (∃ fid, i = .bind fid) ∨ (∃ sym, i = .push sym) ∨ i = .stat → t.oi = s.oi
  lerr : i = .final ∨ i = .pop ∨ i = .stat → t.lerr = s.lerr
  ph : i = .stat → t.ph = s.ph

/-- A refusal, and `STAT`, write the response port alone (R128, R212). -/
theorem KeepsOtherRegisters.respond (i : Instr) (s : State) (e : Code) (d : Sym) :
    KeepsOtherRegisters i s (s.respond e d) := by
  constructor <;> simp

theorem execUnder_keepsOtherRegisters {c : Config} {i : Instr} {s t : State} (h : execUnder c i s = .next t) :
    KeepsOtherRegisters i s t := by
  have ho := execUnder_outcome c i s
  rw [h] at ho
  cases ho with
  | status | unbound | sequence => exact .respond i s _ _
  | aborted e he =>
    obtain ⟨-, -, kind, rfl, -⟩ | ⟨-, -, sym, rfl, -⟩ | ⟨-, -, -, sym, rfl, -⟩ := he <;> constructor <;> simp
  | died _ hi | constructed _ hi | started hi =>
    subst hi
    constructor <;> simp
  | absorbed sym u hi _ _ _ hf =>
    have hframe := feed_frame c _ s u hf
    subst hi
    constructor <;> simp [hframe]
  | padded u hi _ hf =>
    have hframe := feedAll_frame c _ s u hf
    subst hi
    constructor <;> simp [hframe]
  | popped b hi =>
    have hframe := consumeByte_frame s
    subst hi
    constructor <;> simp [hframe]

/-- Settles O47: row by row of the access matrix. -/
theorem commandsWriteOnlyTheirRegisters : Obligations.CommandsWriteOnlyTheirRegisters := by
  intro i s t ht
  have h := execUnder_keepsOtherRegisters ((exec_eq_execUnder i s).symm.trans ht)
  exact ⟨h.inputs, h.resets, h.fn, h.call, h.len, h.oi, h.lerr, h.ph⟩

/-! ### The output index, R38 (d) -/

theorem consumeByte_oi_le {s : State} (h : s.oi.toNat ≤ 19) : s.consumeByte.oi.toNat ≤ 19 := by
  by_cases hlast : s.oi.toNat = 19
  · rw [consumeByte_of_last hlast]
    exact Nat.zero_le 19
  · rw [consumeByte_of_ne hlast]
    show (s.oi + 1).toNat ≤ 19
    bv_omega

theorem execUnder_oi_le {c : Config} {i : Instr} {s t : State} (h : execUnder c i s = .next t)
    (hoi : s.oi.toNat ≤ 19) : t.oi.toNat ≤ 19 := by
  have ho := execUnder_outcome c i s
  rw [h] at ho
  cases ho with
  | status | unbound | sequence | aborted | died | constructed => exact hoi
  | started | padded => exact Nat.zero_le 19
  | absorbed sym u _ _ _ _ hf =>
    obtain ⟨-, hu, -⟩ := feed_frame c _ s u hf
    rwa [State.respond_oi, State.countByte_oi, hu]
  | popped => exact consumeByte_oi_le hoi

/-- Settles O16: `START` and `FINAL` clear `oi`, `POP` keeps its range, and no other command writes it. -/
theorem outputIndexStaysInRange : Obligations.OutputIndexStaysInRange := by
  intro s t hreset hoi ht
  obtain ⟨-, rfl⟩ | ⟨rest, hs, -⟩ | ⟨w, rest, why, -, -, rfl⟩ | ⟨w, rest, i, -, -, h⟩ := step_next_cases ht
  · exact hoi
  · exact absurd hs (hreset rest)
  · exact hoi
  · exact execUnder_oi_le h hoi

/-! ### The captured capability, R35 -/

/-- R120: `BIND` writes `fn` only where it constructs. -/
theorem execUnder_bind_fn {c : Config} {fid : BitVec 8} {s t : State} (h : execUnder c (.bind fid) s = .next t) :
    t.fn = s.fn ∨ s.ph = .unbound ∧ t.fn = some fid ∧ fnTable c fid ≠ none := by
  obtain ⟨-, hb⟩ | ⟨-, hb⟩ | ⟨-, -, hb⟩ | ⟨hp, hf, hb⟩ := bindUnder_cases c fid s
  all_goals cases hb.symm.trans h
  · exact .inl rfl
  · exact .inl rfl
  · exact .inl rfl
  · exact .inr ⟨hp, rfl, hf⟩

/-- Settles O44: of the commands only `BIND` writes `fn`, and only where it constructs. -/
theorem onlyConstructionWritesTheCapability : Obligations.OnlyConstructionWritesTheCapability := by
  intro s t ht hne
  obtain ⟨-, rfl⟩ | ⟨rest, hs, rfl⟩ | ⟨w, rest, why, -, -, rfl⟩ | ⟨w, rest, i, hs, hd, h⟩ := step_next_cases ht
  · exact absurd rfl hne
  · exact .inl ⟨rest, hs, rfl⟩
  · exact absurd rfl hne
  · by_cases hb : ∃ fid, i = .bind fid
    · obtain ⟨fid, rfl⟩ := hb
      obtain ⟨-, rfl⟩ := wellFormed_and_encode_of_decode hd
      obtain ⟨hp, hfn, hf⟩ := (execUnder_bind_fn h).resolve_left hne
      exact .inr ⟨hp, fid, rest, hs, hfn, hf⟩
    · exact absurd ((execUnder_keepsOtherRegisters h).fn (not_exists.mp hb)) hne

/-! ### The modes, R217 -/

theorem execUnder_operating {c : Config} {i : Instr} {s t : State} (h : execUnder c i s = .next t)
    (hop : operating s.ph) : operating t.ph := by
  have ho := execUnder_outcome c i s
  rw [h] at ho
  cases ho with
  | status | unbound | sequence => exact hop
  | aborted | constructed => exact .inl rfl
  | died _ _ hp => rcases hop with hop | hop | hop <;> simp [hp] at hop
  | started => exact .inr (.inl rfl)
  | absorbed sym u _ hp _ _ hf =>
    obtain ⟨-, -, hu, -⟩ := feed_frame c _ s u hf
    exact .inr (.inl (hu.trans hp))
  | padded => exact .inr (.inr rfl)
  | popped =>
    rw [State.respond_ph, consumeByte_ph]
    split
    · exact .inl rfl
    · exact hop

/-- R209, step 4: in `UNBOUND` every command but `BIND` is refused or is `STAT`. -/
theorem execUnder_ph_of_unbound {c : Config} {i : Instr} {s t : State} (h : execUnder c i s = .next t)
    (hp : s.ph = .unbound) (hb : ∀ fid, i ≠ .bind fid) : t.ph = .unbound := by
  by_cases hi : i = .stat
  · exact ((execUnder_keepsOtherRegisters h).ph hi).trans hp
  · cases (refusedWith_capabilityNotBound c (.inl hp) hi (.inr hb)).symm.trans h
    exact hp

/-- R217: construction mode is left by `BIND` alone, unless the reset event occurs. -/
theorem step_of_unbound {s t : State} (ht : step s = .next t) (hreset : ∀ rest, s.inputs ≠ .reset :: rest)
    (hp : s.ph = .unbound) (hne : t.ph ≠ .unbound) :
    ∃ fid rest, s.inputs = .command (encode (.bind fid)) :: rest := by
  obtain ⟨-, rfl⟩ | ⟨rest, hs, -⟩ | ⟨w, rest, why, -, -, rfl⟩ | ⟨w, rest, i, hs, hd, h⟩ := step_next_cases ht
  · exact absurd hp hne
  · exact absurd hs (hreset rest)
  · exact absurd hp hne
  · by_contra hb
    refine hne (execUnder_ph_of_unbound h hp ?_)
    rintro fid rfl
    obtain ⟨-, rfl⟩ := wellFormed_and_encode_of_decode hd
    exact hb ⟨fid, rest, hs⟩

theorem step_of_operating {s t : State} (ht : step s = .next t) (hreset : ∀ rest, s.inputs ≠ .reset :: rest)
    (hop : operating s.ph) : operating t.ph := by
  obtain ⟨-, rfl⟩ | ⟨rest, hs, -⟩ | ⟨w, rest, why, -, -, rfl⟩ | ⟨w, rest, i, -, -, h⟩ := step_next_cases ht
  · exact hop
  · exact absurd hs (hreset rest)
  · exact hop
  · exact execUnder_operating h hop

/-- Settles O45: mode by mode. -/
theorem modesAreLeftOnlyAsSaid : Obligations.ModesAreLeftOnlyAsSaid :=
  fun _ _ ht hreset => ⟨step_of_operating ht hreset,
    fun hp => (step_of_dead hp ht).resolve_right fun ⟨_, rest, hs⟩ => hreset rest hs, step_of_unbound ht hreset⟩

end Sys2Proof.Machine
end

section
/-! PROOFS. The invariant of 10_state.md section 6: it holds at reset, every step keeps it, and under it every step goes
on (R38, R80, R253). -/

namespace Sys2Proof.Machine

/-- Settles O13: nothing is bound and nothing is latched at reset. -/
theorem resetStateMeetsTheInvariant : Obligations.ResetStateMeetsTheInvariant := by
  constructor <;> simp [State.reset, operating]

/-! ### What the invariant depends on -/

/-- The invariant does not speak of the response port. -/
theorem Inv.withRsp {c : Config} {s : State} (h : Inv c s) (rsp : Option Word) : Inv c { s with rsp := rsp } :=
  ⟨h.bound_iff, h.fn_defined, h.absorb_pos, h.absorb_oi, h.done_pos, h.done_oi, h.dead_lerr, h.clean_lerr, h.latched⟩

theorem Inv.respond {c : Config} {s : State} (h : Inv c s) (e : Code) (d : Sym) : Inv c (s.respond e d) :=
  h.withRsp _

/-- What is left to show of the invariant after a command that was admitted in operation mode and leaves `fn` alone. -/
theorem Inv.of_operating {c : Config} {s t : State} (h : Inv c s) (hs : operating s.ph) (ht : operating t.ph)
    (hfn : t.fn = s.fn) (habsorb : t.ph = .absorb → t.pos.toNat = t.len.toNat % 64 ∧ t.oi = 0)
    (hdone : t.ph = .done → t.pos = 0 ∧ t.oi.toNat ≤ 19) (hlerr : t.lerr = .ok ∨ t.ph = .idle ∧ t.lerr.aborts) :
    Inv c t where
  bound_iff := hfn ▸ iff_of_true (h.bound_iff.mpr hs) ht
  fn_defined := hfn ▸ h.fn_defined
  absorb_pos hp := (habsorb hp).1
  absorb_oi hp := (habsorb hp).2
  done_pos hp := (hdone hp).1
  done_oi hp := (hdone hp).2
  dead_lerr := by
    refine iff_of_false ?_ (by rcases ht with ht | ht | ht <;> simp [ht])
    obtain hl | ⟨-, hl | hl | hl⟩ := hlerr <;> simp [hl]
  clean_lerr hp := hlerr.resolve_right fun hidle => by simp [hidle.1] at hp
  latched := by obtain hl | ⟨-, hl | hl | hl⟩ := hlerr <;> simp [hl]

theorem Inv.lerr_of_call {c : Config} {s : State} (h : Inv c s) (hp : inCall s.ph) : s.lerr = .ok :=
  h.clean_lerr (.inr hp)

/-! ### What each command does to the invariant -/

section
variable {c : Config} {s t : State}

/-- R211: an abort leaves the call and latches one of its three codes. -/
theorem Inv.abort {e : Code} (h : Inv c s) (hop : operating s.ph) (he : e.aborts) : Inv c (s.latch e .idle) :=
  h.of_operating hop (.inl rfl) rfl nofun nofun (.inr ⟨rfl, he⟩)

/-- R120, R213: the construction that fails. -/
theorem Inv.die (h : Inv c s) (hp : s.ph = .unbound) : Inv c (s.latch .capabilityNotBound .dead) := by
  have hfn : s.fn = none := by
    by_contra hne
    rcases h.bound_iff.mp hne with hop | hop | hop <;> simp [hp] at hop
  constructor <;> simp [hfn, operating]

/-- R120: the construction that succeeds. -/
theorem Inv.construct {fid : BitVec 8} (h : Inv c s) (hp : s.ph = .unbound) (hf : fnTable c fid ≠ none) :
    Inv c (s.captureFn fid) := by
  have hlerr : s.lerr = .ok := h.clean_lerr (.inl hp)
  constructor <;> simp [operating, hlerr, hf]

/-- R124: a call begins at position 0 with nothing counted. -/
theorem Inv.start (h : Inv c s) (hop : operating s.ph) : Inv c (s.beginCall c.iv) :=
  h.of_operating hop (.inr (.inl rfl)) rfl (fun _ => ⟨rfl, rfl⟩) nofun (.inl rfl)

/-- R150: position and count advance together. -/
theorem Inv.absorb {b : Byte} (h : Inv c s) (hp : s.ph = .absorb) (hf : feed c b s = .ok t) : Inv c t.countByte := by
  obtain ⟨hlen, hoi, hph, hfn, hlerr, -, -, -, hpos, -⟩ := feed_frame c b s t hf
  have hcount : (s.pos + 1).toNat = (s.len + 1).toNat % 64 := by
    have := h.absorb_pos hp
    bv_omega
  have hop : operating s.ph := .inr (.inl hp)
  refine h.of_operating hop (hph ▸ hop) hfn (fun _ => ⟨?_, hoi.trans (h.absorb_oi hp)⟩) (fun hd => ?_)
    (.inl (hlerr.trans (h.lerr_of_call (.inl hp))))
  · rwa [State.countByte_pos, State.countByte_len, hpos, hlen]
  · simp [hph, hp] at hd

/-- R142, R145: `FINAL` ends at a block boundary. -/
theorem Inv.pad (h : Inv c s) (hp : s.ph = .absorb) (hf : feedAll c (finalStream s.pos s.len) s = .ok t) :
    Inv c ((t.setOi 0).setPh .done) := by
  obtain ⟨-, -, -, hfn, hlerr, -, -, -, hpos⟩ := feedAll_frame c _ s t hf
  have hboundary : t.pos = 0 := by
    have := finalStream_reaches_boundary s.pos s.len
    rw [hpos]
    bv_omega
  exact h.of_operating (.inr (.inl hp)) (.inr (.inr rfl)) hfn nofun (fun _ => ⟨hboundary, Nat.zero_le 19⟩)
    (.inl (hlerr.trans (h.lerr_of_call (.inl hp))))

/-- R170: the output index stays in range while the digest is read. -/
theorem Inv.pop (h : Inv c s) (hp : s.ph = .done) : Inv c s.consumeByte := by
  obtain ⟨-, -, -, -, hpos, hfn, hlerr, -⟩ := consumeByte_frame s
  have hop : operating s.ph := .inr (.inr hp)
  have hph : s.consumeByte.ph = .idle ∨ s.consumeByte.ph = .done := by
    rw [consumeByte_ph, hp]
    exact ite_eq_or_eq ..
  refine h.of_operating hop (hph.imp_right .inr) hfn (fun ha => ?_)
    (fun _ => ⟨hpos.trans (h.done_pos hp), consumeByte_oi_le (h.done_oi hp)⟩)
    (.inl (hlerr.trans (h.lerr_of_call (.inr hp))))
  rcases hph with hph | hph <;> simp [hph] at ha

theorem Inv.command {i : Instr} (h : Inv c s) (ht : execUnder c i s = .next t) : Inv c t := by
  have ho := execUnder_outcome c i s
  rw [ht] at ho
  cases ho with
  | status | unbound | sequence => exact h.respond _ _
  | aborted e he =>
    obtain ⟨rfl, hop, -⟩ | ⟨rfl, hp, -⟩ | ⟨rfl, hp, -⟩ := he
    · exact (h.abort hop (.inl rfl)).respond _ _
    · exact (h.abort (.inr (.inl hp)) (.inr (.inl rfl))).respond _ _
    · exact (h.abort (.inr (.inl hp)) (.inr (.inr rfl))).respond _ _
  | died _ _ hp => exact (h.die hp).respond _ _
  | constructed _ _ hp hf => exact (h.construct hp hf).respond _ _
  | started _ hop => exact (h.start hop).respond _ _
  | absorbed _ _ _ hp _ _ hf => exact (h.absorb hp hf).respond _ _
  | padded _ _ hp hf => exact (h.pad hp hf).respond _ _
  | popped _ _ hp => exact (h.pop hp).respond _ _

theorem Inv.of_resetEvent (c : Config) (s : State) : Inv c (resetEvent s) := by
  obtain ⟨hph, hfn, hlerr, -⟩ := resetEvent_defined s
  constructor <;> simp [hph, hfn, hlerr, operating]

/-- R38, R35, R182: the invariant excludes the states in which a command stops the model. -/
theorem Inv.exists_next (h : Inv c s) (i : Instr) : ∃ t, execUnder c i s = .next t := by
  have ho := execUnder_outcome c i s
  generalize execUnder c i s = o at ho
  cases ho with
  | stopped r hr =>
    obtain ⟨-, hp, hnone, -⟩ | ⟨-, hp, hgt, -⟩ := hr
    · obtain ⟨F, hF⟩ := h.boundFn_eq_some (.inr (.inl hp))
      cases hnone.symm.trans hF
    · exact absurd (h.done_oi hp) (Nat.not_le.mpr hgt)
  | _ => exact ⟨_, rfl⟩

end

/-! ### The statements -/

/-- Settles O14: each event keeps the invariant, the commands one by one. -/
theorem everyStepKeepsTheInvariant : Obligations.EveryStepKeepsTheInvariant := by
  intro s t h ht
  obtain ⟨-, rfl⟩ | ⟨rest, -, rfl⟩ | ⟨w, rest, why, -, -, rfl⟩ | ⟨w, rest, i, -, -, hi⟩ := step_next_cases ht
  · exact h.withRsp none
  · exact Inv.of_resetEvent _ _
  · exact (h.withInputs rest).respond _ _
  · exact (h.withInputs rest).command hi

/-- R80: a step on a command word takes the word from the port and leaves one response there. -/
theorem step_answers {s t : State} {w : Word} {rest : List HostEvent} (hs : s.inputs = .command w :: rest)
    (ht : step s = .next t) : ∃ r, t.rsp = some r ∧ t.inputs = rest := by
  obtain ⟨u, e, d, rfl, -⟩ := step_answer hs ht
  refine ⟨_, rfl, ?_⟩
  obtain ⟨hs', -⟩ | ⟨rest', hs', -⟩ | ⟨w', rest', why, hs', -, h⟩ | ⟨w', rest', i, hs', -, h⟩ := step_next_cases ht
  all_goals cases hs.symm.trans hs'
  · rw [h]
    rfl
  · exact (execUnder_keepsOtherRegisters h).inputs

/-- Settles O15: under the invariant no command stops, and no other event can. -/
theorem everyCommandIsAnswered : Obligations.EveryCommandIsAnswered := by
  intro s h
  have ⟨t, ht⟩ : ∃ t, step s = .next t := by
    obtain ⟨-, hstep⟩ | ⟨rest, -, hstep⟩ | ⟨w, rest, why, -, -, hstep⟩ | ⟨w, rest, i, -, -, hstep⟩ := step_cases s
    · exact ⟨_, hstep⟩
    · exact ⟨_, hstep⟩
    · exact ⟨_, hstep⟩
    · exact hstep ▸ (h.withInputs rest).exists_next i
  refine ⟨⟨t, ht⟩, fun w rest hs => ?_⟩
  obtain ⟨r, hr, hinputs⟩ := step_answers hs ht
  exact ⟨t, r, ht, hr, hinputs⟩

end Sys2Proof.Machine
end

section
/-! PROOFS. The message absorbed (R38 (a)): `START` begins with the empty one, and `PUSH` appends a byte to it. -/

namespace Sys2Proof.Machine

/-- Settles O17: the empty message has no complete block and no complete word. -/
theorem startBeginsTheEmptyMessage : Obligations.StartBeginsTheEmptyMessage := by
  intro c F s hop hF
  exact ⟨_, execUnder_start_string c hop, ⟨rfl, rfl, rfl, rfl, fun k _ hk => absurd hk (Nat.not_lt_zero k), rfl⟩, hF⟩

/-! ### Words and numbers of a longer message -/

theorem bigEndian_append_singleton (q : List Byte) (b : Byte) : bigEndian (q ++ [b]) = 256 * bigEndian q + b.toNat := by
  simp only [bigEndian, List.foldl_append, List.foldl_cons, List.foldl_nil]

/-- R55 (a): the packer's word, which is what four `Feed`s leave in the accumulator, as a number. -/
theorem packWord_toNat (b0 b1 b2 b3 : Byte) : (packWord b0 b1 b2 b3).toNat = bigEndian [b0, b1, b2, b3] := by
  rw [← fedAll_four_acc placeholder b0 b1 b2 b3 State.reset, fedAll_four_acc_toNat]
  simp only [bigEndian, List.foldl_cons, List.foldl_nil]
  omega

/-- R190: the last word of a string of whole words is the number its last four bytes spell. -/
theorem wordAt_toNat_of_last {p : List Byte} {n : Nat} (hp : p.length = 4 * (n + 1)) :
    (wordAt p n).toNat = bigEndian (p.drop (4 * n)) := by
  obtain ⟨q, b0, b1, b2, b3, hq, rfl⟩ := exists_append_four hp
  rw [wordAt_append_four hq, packWord_toNat, List.drop_left' hq]

theorem wordAt_drop (p : List Byte) (j k : Nat) : wordAt (p.drop (4 * j)) k = wordAt p (j + k) := by
  simp only [wordAt, List.getD_eq_getElem?_getD, List.getElem?_drop, Nat.mul_add, Nat.add_assoc]

/-! ### `Run` over one more block -/

theorem firstBlocks_append (n : Nat) {p : List Byte} (q : List Byte) (hp : p.length = 64 * n) :
    firstBlocks (n + 1) (p ++ q) = firstBlocks n p ++ [q.take 64] := by
  induction n generalizing p with
  | zero =>
    rw [List.eq_nil_of_length_eq_zero hp]
    rfl
  | succ n ih =>
    have hle : 64 ≤ p.length := by omega
    rw [firstBlocks, List.take_append_of_le_length hle, List.drop_append_of_le_length hle,
      ih (by rw [List.length_drop]; omega)]
    rfl

/-- R191: a block more is one more application of `F`. -/
theorem run_append_block (F : CompressionFn) (S : DigestWords) {p q : List Byte} {n : Nat} (hp : p.length = 64 * n)
    (hq : q.length = 64) : run F S (p ++ q) = F (run F S p) (sched q) := by
  have hn : (p ++ q).length / 64 = n + 1 := by rw [List.length_append]; omega
  have hpn : p.length / 64 = n := by omega
  rw [run, run, blocks, blocks, hn, hpn, firstBlocks_append n q hp, List.foldl_append, List.take_of_length_le hq.le]
  rfl

/-! ### One more byte absorbed -/

section
variable {F : CompressionFn} {iv : DigestWords} {m : List Byte} {s : State}

/-- R38 (a), R153: the accumulator holds one byte more of the current word, which that byte may complete. -/
theorem Absorbed.fed_acc_mod (h : Absorbed F iv m s) (b : Byte) :
    (fed F b s).acc.toNat % 2 ^ (8 * (m.length % 4 + 1)) = bigEndian ((m ++ [b]).drop (4 * (m.length / 4))) := by
  have hacc := h.acc
  have hb := b.isLt
  rw [List.drop_append_of_le_length (by omega), bigEndian_append_singleton, ← hacc, fed_acc_toNat]
  have hr : m.length % 4 < 4 := Nat.mod_lt _ (by decide)
  generalize m.length % 4 = r at hr
  interval_cases r <;> omega

/-- R154: the complete words of the partial block, with the byte in it, stand in their slots. -/
theorem Absorbed.fed_W (h : Absorbed F iv m s) (b : Byte) (k : Nat) (hk : k < 16)
    (hlt : k < (m.length % 64 + 1) / 4) :
    (fed F b s).W[k] = wordAt ((m ++ [b]).drop (64 * (m.length / 64))) k := by
  have hdrop (p : List Byte) : p.drop (64 * (m.length / 64)) = p.drop (4 * (16 * (m.length / 64))) := by
    congr 1
    omega
  have hold := h.W k hk
  rw [hdrop, wordAt_drop] at hold ⊢
  rw [fed_W_getElem F b s k hk, h.pos]
  split
  case isTrue hlast =>
    have hn : 16 * (m.length / 64) + k = m.length / 4 := by omega
    have hlen : (m ++ [b]).length = 4 * (m.length / 4 + 1) := by rw [List.length_append, List.length_singleton]; omega
    have hacc := h.fed_acc_mod b
    have h32 : 8 * (m.length % 4 + 1) = 32 := by omega
    rw [h32, Nat.mod_eq_of_lt (BitVec.isLt _)] at hacc
    rw [hn]
    exact BitVec.eq_of_toNat_eq (hacc.trans (wordAt_toNat_of_last hlen).symm)
  case isFalse hne =>
    rw [hold (by omega), wordAt_append_left _ (by omega)]

/-- R38 (a), R153: State holds the complete blocks, the one that the byte completes among them. -/
theorem Absorbed.fed_H (h : Absorbed F iv m s) (b : Byte) :
    (fed F b s).H = run F iv ((m ++ [b]).take (64 * ((m ++ [b]).length / 64))) := by
  have hpos := h.pos
  rw [List.length_append, List.length_singleton]
  by_cases hlast : m.length % 64 = 63
  · have h63 : s.pos = 63 := BitVec.eq_of_toNat_eq (hpos.trans hlast)
    have hq : (m.drop (64 * (m.length / 64)) ++ [b]).length = 64 := by
      rw [List.length_append, List.length_drop, List.length_singleton]
      omega
    have hp : (m.take (64 * (m.length / 64))).length = 64 * (m.length / 64) := List.length_take_of_le (by omega)
    have hdrop : (m ++ [b]).drop (64 * (m.length / 64)) = m.drop (64 * (m.length / 64)) ++ [b] :=
      List.drop_append_of_le_length (by omega)
    have hW : (fed F b s).W = sched (m.drop (64 * (m.length / 64)) ++ [b]) :=
      Vector.ext fun k hk => by rw [h.fed_W b k hk (by omega), sched_getElem _ k hk, hdrop]
    have hall : (m ++ [b]).take (64 * ((m.length + 1) / 64)) =
        m.take (64 * (m.length / 64)) ++ (m.drop (64 * (m.length / 64)) ++ [b]) := by
      rw [← List.append_assoc, List.take_append_drop]
      exact List.take_of_length_le (by rw [List.length_append, List.length_singleton]; omega)
    rw [fed_H_of_last F b h63, hW, hall, run_append_block F iv hp hq, h.H]
  · have hne : s.pos ≠ 63 := fun h63 => hlast (hpos.symm.trans (congrArg BitVec.toNat h63))
    have hdiv : (m.length + 1) / 64 = m.length / 64 := by omega
    rw [fed_H_of_ne F b hne, hdiv, List.take_append_of_le_length (by omega), h.H]

/-- R38 (a): what `PUSH` leaves has absorbed one byte more. -/
theorem Absorbed.push (h : Absorbed F iv m s) (b : Byte) (hlt : m.length < 2 ^ 61 - 1) (rsp : Option Word) :
    Absorbed F iv (m ++ [b]) ((fed F b s).withCount (s.len + 1) rsp) where
  ph := by
    obtain ⟨-, -, hph, -⟩ := fed_frame F b s
    exact hph.trans h.ph
  len := by
    show (s.len + 1).toNat = _
    have := h.len
    rw [List.length_append, List.length_singleton]
    bv_omega
  pos := by
    rw [State.withCount_pos, fed_pos_toNat, h.pos, List.length_append, List.length_singleton]
    omega
  H := h.fed_H b
  W k hk hlt := by
    rw [List.length_append, List.length_singleton] at hlt ⊢
    have hdiv : (m.length + 1) / 64 = m.length / 64 := by omega
    rw [hdiv]
    exact h.fed_W b k hk (by omega)
  acc := by
    show (fed F b s).acc.toNat % _ = _
    rw [List.length_append, List.length_singleton]
    by_cases hlast : m.length % 4 = 3
    · have hmod : (m.length + 1) % 4 = 0 := by omega
      rw [hmod, List.drop_eq_nil_of_le (by rw [List.length_append, List.length_singleton]; omega)]
      exact Nat.mod_one _
    · have hmod : (m.length + 1) % 4 = m.length % 4 + 1 := by omega
      have hdiv : (m.length + 1) / 4 = m.length / 4 := by omega
      rw [hmod, hdiv, h.fed_acc_mod b]

end

/-- Settles O18: the byte is fed and counted, and State, schedule and accumulator follow. -/
theorem pushAppendsToTheMessage : Obligations.PushAppendsToTheMessage := by
  intro c F m b s hF h hlt
  have hpush := execUnder_push_of_bound b hF h.ph (by rw [h.len]; omega)
  obtain ⟨-, -, -, hfn, -⟩ := fed_frame F b s
  exact ⟨_, hpush, h.push b hlt _, (boundFn_congr c hfn).trans hF⟩

end Sys2Proof.Machine
end

section
/-! PROOFS. A whole block, and the length field at the end of the last one (R55 (b), R144, R156). -/

namespace Sys2Proof.Machine

/-- Settles O28: the words of the block fill the schedule before its last byte compresses it. -/
theorem aBlockIsCompressedOnceWithItsOwnSchedule : Obligations.ABlockIsCompressedOnceWithItsOwnSchedule :=
  fun c F q s hF hpos hq => ⟨_, feedAll_of_bound c F q s hF, fedAll_H_of_block F hpos hq, fedAll_W_of_block F hpos hq,
    fedAll_pos_of_blocks F hpos ⟨1, hq⟩⟩

/-- R15: the eight bytes of the length field are the bytes of two words, the high one first. -/
theorem be64_eq_append_be32 (n : Nat) : be64 n = be32 (.ofNat 32 (n / 2 ^ 32)) ++ be32 (.ofNat 32 n) := by
  have hbyte (k : Nat) : (n >>> (8 * k)) &&& 255 = n / 2 ^ (8 * k) % 256 := by
    rw [Nat.shiftRight_eq_div_pow]
    exact Nat.and_two_pow_sub_one_eq_mod _ 8
  simp only [be64, lengthBytes, be32, byteOfWord_eq, hbyte, List.map_cons, List.map_nil, List.cons_append,
    List.nil_append, BitVec.toNat_ofNat, List.cons.injEq, and_true]
  refine ⟨?_, ?_, ?_, ?_, ?_, ?_, ?_, ?_⟩ <;> congr 1 <;> omega

theorem be32_eq (w : Word) : be32 w = [.ofNat 8 (byteOfWord w 0), .ofNat 8 (byteOfWord w 1),
    .ofNat 8 (byteOfWord w 2), .ofNat 8 (byteOfWord w 3)] := rfl

/-- R155: the four bytes of a word put the word together again. -/
theorem fedAll_be32_acc (F : CompressionFn) (w : Word) (s : State) : (fedAll F (be32 w) s).acc = w := by
  have hvalue : bigEndian (be32 w) = w.toNat := (bigEndian_append_be32 [] w).trans (Nat.zero_add _)
  exact BitVec.eq_of_toNat_eq
    ((congrArg BitVec.toNat (fedAll_four_acc F _ _ _ _ s)).trans ((packWord_toNat _ _ _ _).trans hvalue))

theorem fedAll_be32_W_getElem (F : CompressionFn) (w : Word) {s : State} {k : Nat} (hpos : s.pos.toNat = 4 * k)
    (j : Nat) (hj : j < 16) : (fedAll F (be32 w) s).W[j] = if j = k then w else s.W[j] := by
  have hacc := fedAll_be32_acc F w s
  rw [be32_eq] at hacc ⊢
  rw [fedAll_four_W_getElem F _ _ _ _ hpos j hj, hacc]

theorem fedAll_last_words_W (F : CompressionFn) (v w : Word) {s : State} (hpos : s.pos.toNat = 56) :
    (fedAll F (be32 v ++ be32 w) s).W[14] = v ∧ (fedAll F (be32 v ++ be32 w) s).W[15] = w := by
  have hnext : (fedAll F (be32 v) s).pos.toNat = 4 * 15 := by
    rw [fedAll_pos_toNat, hpos]
    rfl
  have hv := fedAll_be32_W_getElem F v (k := 14) hpos
  have hw := fedAll_be32_W_getElem F w hnext
  rw [fedAll_append]
  constructor
  · rw [hw 14 (by decide), hv 14 (by decide)]
    rfl
  · rw [hw 15 (by decide)]
    rfl

/-- R55 (b): the high word of the length goes to slot 14 and the low word to slot 15. -/
theorem fedAll_finalStream_W (F : CompressionFn) (s : State) :
    (fedAll F (finalStream s.pos s.len) s).W[14] = .ofNat 32 (bitLength s.len / 2 ^ 32) ∧
      (fedAll F (finalStream s.pos s.len) s).W[15] = .ofNat 32 (bitLength s.len) := by
  have hpos : (fedAll F ([0x80#8] ++ List.replicate (padZeros s.pos.toNat) 0x00#8) s).pos.toNat = 56 := by
    obtain ⟨hz, -⟩ := padZeros_spec s.pos.toNat
    rw [fedAll_pos_toNat, List.length_append, List.length_replicate, List.length_singleton]
    omega
  rw [finalStream, fedAll_append, be64_eq_append_be32]
  exact fedAll_last_words_W F _ _ hpos

/-- Settles O32: the length is below `2 ^ 64`, so its two words hold all of it. -/
theorem lengthFieldEndsTheLastBlock : Obligations.LengthFieldEndsTheLastBlock := by
  intro F s hp hF
  obtain ⟨hhigh, hlow⟩ := fedAll_finalStream_W F s
  have hlen := s.len.isLt
  refine ⟨_, (exec_eq_execUnder .final s).trans (execUnder_final_of_bound hF hp), ?_, ?_⟩
  · refine (congrArg BitVec.toNat hhigh).trans ?_
    rw [BitVec.toNat_ofNat, bitLength]
    omega
  · refine (congrArg BitVec.toNat hlow).trans ?_
    rw [BitVec.toNat_ofNat, bitLength]

end Sys2Proof.Machine
end

section
/-! PROOFS. When a byte stream stops, and the states in which the model does (log 9, log 10). -/

namespace Sys2Proof.Machine

/-- R182: a stream goes on when a function is bound, or when it completes no block. -/
theorem exists_feedAll_ok_iff (c : Config) (p : List Byte) (s : State) :
    (∃ t, feedAll c p s = .ok t) ↔ boundFn c s ≠ none ∨ s.pos.toNat + p.length < 64 := by
  induction p generalizing s with
  | nil => exact iff_of_true ⟨s, rfl⟩ (.inr s.pos.isLt)
  | cons b p ih =>
    rw [List.length_cons, feedAll]
    obtain ⟨F, hF, hf⟩ | ⟨hnone, hblock, hf⟩ | ⟨hnone, hblock, hf⟩ := feed_cases c b s
    · obtain ⟨-, -, -, hfn, -⟩ := fed_frame F b s
      have hbound : boundFn c (fed F b s) ≠ none := by simp [boundFn_congr c hfn, hF]
      rw [hf]
      exact iff_of_true ((ih _).mpr (.inl hbound)) (.inl (by simp [hF]))
    · obtain ⟨-, -, hpos, -, -, hfn, -⟩ := packByte_frame b s
      have hne : s.pos ≠ 63 := by simpa [completesBlock] using hblock
      have hnext : (packByte b s).advancePos.pos = s.pos + 1 := congrArg (· + 1) hpos
      have hunbound : boundFn c (packByte b s).advancePos = none := (boundFn_congr c hfn).trans hnone
      rw [hf]
      refine (ih _).trans ?_
      simp only [hunbound, hnone, hnext, ne_eq, not_true_eq_false, false_or]
      bv_omega
    · have h63 : s.pos.toNat = 63 := congrArg BitVec.toNat ((completesBlock_iff s.pos).mp hblock)
      rw [hf]
      refine iff_of_false nofun ?_
      simp only [hnone, h63, ne_eq, not_true_eq_false, false_or]
      omega

/-- `Feed` is a stream of one byte. -/
theorem feedAll_singleton (c : Config) (b : Byte) (s : State) : feedAll c [b] s = feed c b s := by
  rw [feedAll]
  cases feed c b s <;> rfl

/-- Log 9: a stream stops with one fault only. -/
theorem feedAll_eq_compressUnbound {c : Config} {p : List Byte} {s : State} (hnone : boundFn c s = none)
    (hblock : 64 ≤ s.pos.toNat + p.length) : feedAll c p s = .error (.fault .compressUnbound) := by
  cases hf : feedAll c p s with
  | ok t =>
    obtain hne | hlt := (exists_feedAll_ok_iff c p s).mp ⟨t, hf⟩
    · exact absurd hnone hne
    · exact absurd hblock (Nat.not_le.mpr hlt)
  | error e =>
    obtain ⟨rfl, -⟩ := feedAll_error c p s e hf
    rfl

/-- Settles O43: `PUSH` at position 63 and `FINAL` anywhere complete a block; an index above 19 names no word of `H`. -/
theorem excludedStatesStop : Obligations.ExcludedStatesStop := by
  refine ⟨fun sym s hp hs hl hnone hpos => ?push, fun s hp hnone => ?final, fun s hp hoi => ?pop⟩
  all_goals rw [exec_eq_execUnder]
  case push =>
    have hfeed : feed Config.platform (sym.extractLsb' 0 8) s = .error (.fault .compressUnbound) := by
      rw [← feedAll_singleton]
      exact feedAll_eq_compressUnbound hnone (by rw [hpos, List.length_singleton]; decide)
    rw [execUnder_push_of_absorb _ sym hp, pushBody_of_le _ s hs, if_neg (mt (len_eq_maxLen_iff s).mp hl.ne), hfeed]
    rfl
  case final =>
    have hboundary := finalStream_reaches_boundary s.pos s.len
    have hlen := finalStream_length s.pos s.len
    simp only [execUnder, finalUnder, admission_absorb hp, finalBody_eq,
      feedAll_eq_compressUnbound hnone (p := finalStream s.pos s.len) (by omega)]
    rfl
  case pop =>
    have hnobyte : digestByteAt s.H s.oi = none := by
      rw [digestByteAt_eq, Vector.getElem?_eq_none (by omega), Option.map_none]
    simp only [execUnder, execPop, admission_done hp, hnobyte]

end Sys2Proof.Machine
end

section
/-! PROOFS. What a host can see (R20, R35, R36, R173): the answers of an engine depend on its phase, its binding and its
latched error, and on the registers of the call in progress alone. -/

namespace Sys2Proof.Machine

/-! ### From an outcome back to the command -/

/-- The outcomes of `CommandOutcome` that go on exclude each other: each is what the command does. -/
theorem CommandOutcome.execUnder_eq {c : Config} {i : Instr} {s t : State} (h : CommandOutcome c i s (.next t)) :
    execUnder c i s = .next t := by
  cases h with
  | status hi => exact hi ▸ refusedWith_stat c s
  | unbound hi hp hb => exact refusedWith_capabilityNotBound c hp hi hb
  | sequence hi hk hp ha hd =>
    cases i with
    | bind fid => exact refusedWith_bind_of_operating c fid hp
    | start kind => exact absurd rfl (hk kind)
    | push sym => exact refusedWith_seqError c rfl hp (absorbAdmitted_eq_false (ha (.inl ⟨sym, rfl⟩)))
    | final => exact refusedWith_seqError c rfl hp (absorbAdmitted_eq_false (ha (.inr rfl)))
    | pop => exact refusedWith_seqError c rfl hp (doneAdmitted_eq_false (hd rfl))
    | stat => exact absurd rfl hi
  | aborted e he =>
    obtain ⟨rfl, hop, kind, rfl, hk⟩ | ⟨rfl, hp, sym, rfl, hs⟩ | ⟨rfl, hp, hl, sym, rfl, hs⟩ := he
    · exact abortedWith_start c hop hk
    · exact abortedWith_push_rangeError c hp hs
    · exact abortedWith_push_lenOverflow c hp hs ((len_eq_maxLen_iff s).mp hl)
  | died fid hi hp hf => exact hi ▸ execUnder_bind_undefined hp hf
  | constructed fid hi hp hf => exact hi ▸ execUnder_bind_defined hp hf
  | started hi hp => exact hi ▸ execUnder_start_string c hp
  | absorbed sym u hi hp hs hl hf =>
    rw [hi, execUnder_push_of_absorb c sym hp, pushBody_of_le c s hs, if_neg hl, hf]
    rfl
  | padded u hi hp hf =>
    simp only [hi, execUnder, finalUnder, admission_absorb hp, finalBody_eq, hf]
    rfl
  | popped b hi hp hb hle =>
    rw [hi, setWidth_ofNat_byte hle]
    exact execPop_of_done hp hb

/-! ### Equal registers of a call -/

/-- The registers a reset event leaves unspecified (R36), equal in two engines. -/
structure SameCall (s t : State) : Prop where
  H : s.H = t.H
  W : s.W = t.W
  acc : s.acc = t.acc
  len : s.len = t.len
  pos : s.pos = t.pos
  oi : s.oi = t.oi

/-- R153, R182: State after `Feed`, bound or not. -/
theorem feed_H {c : Config} {b : Byte} {s u : State} (hu : feed c b s = .ok u) :
    u.H = if completesBlock s.pos then (boundFn c s).elim s.H fun F => F s.H u.W else s.H := by
  obtain ⟨F, hF, hf⟩ | ⟨-, hblock, hf⟩ | ⟨-, -, hf⟩ := feed_cases c b s
  all_goals cases hf.symm.trans hu
  · obtain ⟨-, -, -, -, -, -, -, -, -, -, hW⟩ := fed_frame F b s
    rw [fed_H, hF, Option.elim_some, hW]
  · obtain ⟨hH, -⟩ := packByte_frame b s
    rw [if_neg (by simp [hblock])]
    exact hH

/-- `Feed` does the same to two engines with equal call registers and the same function bound. -/
theorem SameCall.feed {c : Config} {b : Byte} {s t u v : State} (h : SameCall s t) (hfn : s.fn = t.fn)
    (hu : feed c b s = .ok u) (hv : feed c b t = .ok v) : SameCall u v := by
  obtain ⟨hlen, hoi, -, -, -, -, -, -, hpos, hacc, hW⟩ := feed_frame c b s u hu
  obtain ⟨hlen', hoi', -, -, -, -, -, -, hpos', hacc', hW'⟩ := feed_frame c b t v hv
  have hsched : u.W = v.W := by simp only [hW, hW', packByte_W, h.W, h.acc, h.pos]
  constructor
  case H => rw [feed_H hu, feed_H hv, h.H, h.pos, hsched, boundFn_congr c hfn]
  case W => exact hsched
  case acc => rw [hacc, hacc', packByte_acc, packByte_acc, h.acc]
  case len => rw [hlen, hlen', h.len]
  case pos => rw [hpos, hpos', h.pos]
  case oi => rw [hoi, hoi', h.oi]

theorem exists_feed_of_feedAll_cons {c : Config} {b : Byte} {p : List Byte} {s u : State}
    (hu : feedAll c (b :: p) s = .ok u) : ∃ v, feed c b s = .ok v ∧ feedAll c p v = .ok u := by
  rw [feedAll] at hu
  cases hf : feed c b s with
  | ok v => exact ⟨v, rfl, by rwa [hf] at hu⟩
  | error e => rw [hf] at hu; cases hu

theorem SameCall.feedAll {c : Config} {p : List Byte} {s t u v : State} (h : SameCall s t) (hfn : s.fn = t.fn)
    (hu : feedAll c p s = .ok u) (hv : feedAll c p t = .ok v) : SameCall u v := by
  induction p generalizing s t with
  | nil =>
    cases hu
    cases hv
    exact h
  | cons b p ih =>
    obtain ⟨s', hs, hu⟩ := exists_feed_of_feedAll_cons hu
    obtain ⟨t', ht, hv⟩ := exists_feed_of_feedAll_cons hv
    obtain ⟨-, -, -, hsfn, -⟩ := feed_frame c b s s' hs
    obtain ⟨-, -, -, htfn, -⟩ := feed_frame c b t t' ht
    exact ih (h.feed hfn hs ht) (hsfn.trans (hfn.trans htfn.symm)) hu hv

/-! ### Engines that answer alike -/

/-- What every response shows (R86), equal in two engines. -/
structure SameStatus (s t : State) : Prop where
  ph : s.ph = t.ph
  fn : s.fn = t.fn
  lerr : s.lerr = t.lerr

theorem SameStatus.sameResponse {s t : State} (h : SameStatus s t) (e : Code) (d : Sym) :
    responseWord e d s = responseWord e d t := by
  rw [responseWord_eq h.ph (congrArg Option.isSome h.fn) h.lerr, responseWord_eq rfl rfl rfl]

/-- Engines whose next answers agree: `PUSH` and `FINAL` look at the counters, `POP` at State and the output index. -/
structure AnswersAlike (s t : State) : Prop extends SameStatus s t where
  absorb : s.ph = .absorb → s.len = t.len ∧ s.pos = t.pos
  done : s.ph = .done → s.H = t.H ∧ s.oi = t.oi

/-- Two engines all of whose answers agree: `Alike` without the host's queue. -/
structure Twin (s t : State) : Prop extends SameStatus s t where
  call : inCall s.ph → SameCall s t

theorem Twin.answersAlike {s t : State} (h : Twin s t) : AnswersAlike s t where
  toSameStatus := h.toSameStatus
  absorb hp := ⟨(h.call (.inl hp)).len, (h.call (.inl hp)).pos⟩
  done hp := ⟨(h.call (.inr hp)).H, (h.call (.inr hp)).oi⟩

theorem AnswersAlike.symm {s t : State} (h : AnswersAlike s t) : AnswersAlike t s where
  ph := h.ph.symm
  fn := h.fn.symm
  lerr := h.lerr.symm
  absorb hp := (h.absorb (h.ph.trans hp)).imp Eq.symm Eq.symm
  done hp := (h.done (h.ph.trans hp)).imp Eq.symm Eq.symm

/-! ### One command on two engines -/

/-- The engine `t` answers the command as the engine `s` did, which went on to `s'`; twins stay twins. -/
def Follows (c : Config) (i : Instr) (s t s' : State) : Prop :=
  ∃ t', execUnder c i t = .next t' ∧ s'.rsp = t'.rsp ∧ (Twin s t → Twin s' t')

theorem Follows.of_respond {c : Config} {i : Instr} {s t u v : State} {e : Code} {d : Sym}
    (hv : CommandOutcome c i t (.next (v.respond e d))) (hst : SameStatus u v)
    (hcall : Twin s t → inCall u.ph → SameCall u v) : Follows c i s t (u.respond e d) := by
  refine ⟨_, hv.execUnder_eq, congrArg some (hst.sameResponse e d), fun htwin => ⟨⟨hst.ph, hst.fn, hst.lerr⟩, ?_⟩⟩
  intro hp
  have h := hcall htwin hp
  exact ⟨h.H, h.W, h.acc, h.len, h.pos, h.oi⟩

theorem not_inCall_idle : ¬ inCall .idle := by simp [inCall]

theorem not_inCall_dead : ¬ inCall .dead := by simp [inCall]

theorem consumeByte_oi (s : State) : s.consumeByte.oi = if s.oi = 19 then 0 else s.oi + 1 :=
  apply_ite State.oi _ _ _

section
variable {c : Config} {s t u : State}

theorem AnswersAlike.follows_aborted {i : Instr} {e : Code} (h : AnswersAlike s t)
    (ht : CommandOutcome c i t (.next ((t.latch e .idle).respond e 0))) :
    Follows c i s t ((s.latch e .idle).respond e 0) :=
  .of_respond ht ⟨rfl, h.fn, rfl⟩ fun _ hp => absurd hp not_inCall_idle

theorem AnswersAlike.follows_absorbed {sym : Sym} (h : AnswersAlike s t) (hp : s.ph = .absorb) (hs : sym.toNat ≤ 255)
    (hl : s.len ≠ maxLen) (hu : feed c (sym.extractLsb' 0 8) s = .ok u) :
    Follows c (.push sym) s t (u.countByte.respond .ok 0) := by
  obtain ⟨hlen, hpos⟩ := h.absorb hp
  have hok := (exists_feedAll_ok_iff c [sym.extractLsb' 0 8] s).mp ⟨u, (feedAll_singleton c _ s).trans hu⟩
  rw [boundFn_congr c h.fn, hpos] at hok
  obtain ⟨v, hv⟩ := (exists_feedAll_ok_iff c _ t).mpr hok
  rw [feedAll_singleton] at hv
  obtain ⟨-, -, hph, hfn, hlerr, -⟩ := feed_frame c _ s u hu
  obtain ⟨-, -, hph', hfn', hlerr', -⟩ := feed_frame c _ t v hv
  refine .of_respond (.absorbed sym v rfl (h.ph ▸ hp) hs (hlen ▸ hl) hv)
    ⟨hph.trans (h.ph.trans hph'.symm), hfn.trans (h.fn.trans hfn'.symm), hlerr.trans (h.lerr.trans hlerr'.symm)⟩
    fun htwin _ => ?_
  have hcall := (htwin.call (.inl hp)).feed h.fn hu hv
  exact ⟨hcall.H, hcall.W, hcall.acc, congrArg (· + 1) hcall.len, hcall.pos, hcall.oi⟩

theorem AnswersAlike.follows_padded (h : AnswersAlike s t) (hp : s.ph = .absorb)
    (hu : feedAll c (finalStream s.pos s.len) s = .ok u) :
    Follows c .final s t (((u.setOi 0).setPh .done).respond .ok 0) := by
  obtain ⟨hlen, hpos⟩ := h.absorb hp
  have hok := (exists_feedAll_ok_iff c _ s).mp ⟨u, hu⟩
  rw [boundFn_congr c h.fn, hpos, hlen] at hok
  obtain ⟨v, hv⟩ := (exists_feedAll_ok_iff c _ t).mpr hok
  obtain ⟨-, -, -, hfn, hlerr, -⟩ := feedAll_frame c _ s u hu
  obtain ⟨-, -, -, hfn', hlerr', -⟩ := feedAll_frame c _ t v hv
  refine .of_respond (.padded v rfl (h.ph ▸ hp) hv)
    ⟨rfl, hfn.trans (h.fn.trans hfn'.symm), hlerr.trans (h.lerr.trans hlerr'.symm)⟩ fun htwin _ => ?_
  rw [hpos, hlen] at hu
  have hcall := (htwin.call (.inl hp)).feedAll h.fn hu hv
  exact ⟨hcall.H, hcall.W, hcall.acc, hcall.len, hcall.pos, rfl⟩

theorem AnswersAlike.follows_popped {b : Nat} (h : AnswersAlike s t) (hp : s.ph = .done)
    (hb : digestByteAt s.H s.oi = some b) (hle : b ≤ 255) :
    Follows c .pop s t (s.consumeByte.respond .ok ((BitVec.ofNat 8 b).setWidth 16)) := by
  obtain ⟨hH, hoi⟩ := h.done hp
  obtain ⟨hsH, hsW, hsacc, hslen, hspos, hsfn, hslerr, -⟩ := consumeByte_frame s
  obtain ⟨htH, htW, htacc, htlen, htpos, htfn, htlerr, -⟩ := consumeByte_frame t
  refine .of_respond (.popped b rfl (h.ph ▸ hp) (hH ▸ hoi ▸ hb) hle)
    ⟨by rw [consumeByte_ph, consumeByte_ph, h.ph, hoi], by rw [hsfn, htfn, h.fn], by rw [hslerr, htlerr, h.lerr]⟩
    fun htwin _ => ?_
  have hcall := htwin.call (.inr hp)
  exact ⟨by rw [hsH, htH, hcall.H], by rw [hsW, htW, hcall.W], by rw [hsacc, htacc, hcall.acc],
    by rw [hslen, htlen, hcall.len], by rw [hspos, htpos, hcall.pos],
    by rw [consumeByte_oi, consumeByte_oi, hcall.oi]⟩

/-- A command that goes on in one engine goes on in the other, with the same answer. -/
theorem AnswersAlike.follows {i : Instr} {s' : State} (h : AnswersAlike s t) (hs : execUnder c i s = .next s') :
    Follows c i s t s' := by
  have ho := execUnder_outcome c i s
  rw [hs] at ho
  cases ho with
  | status hi => exact .of_respond (.status hi) h.toSameStatus Twin.call
  | unbound hi hp hb => exact .of_respond (.unbound hi (h.ph ▸ hp) (h.ph ▸ hb)) h.toSameStatus Twin.call
  | sequence hi hk hp ha hd =>
    exact .of_respond (.sequence hi hk (h.ph ▸ hp) (h.ph ▸ ha) (h.ph ▸ hd)) h.toSameStatus Twin.call
  | aborted e he =>
    refine h.follows_aborted (.aborted e ?_)
    refine he.imp (.imp_right (.imp_left fun hop => h.ph ▸ hop)) (.imp (.imp_right (.imp_left fun hp => h.ph ▸ hp)) ?_)
    rintro ⟨rfl, hp, hl, hi⟩
    exact ⟨rfl, h.ph ▸ hp, (h.absorb hp).1 ▸ hl, hi⟩
  | died fid hi hp hf =>
    exact .of_respond (.died fid hi (h.ph ▸ hp) hf) ⟨rfl, h.fn, rfl⟩ fun _ hc => absurd hc not_inCall_dead
  | constructed fid hi hp hf =>
    exact .of_respond (.constructed fid hi (h.ph ▸ hp) hf) ⟨rfl, rfl, h.lerr⟩ fun _ hc => absurd hc not_inCall_idle
  | started hi hp =>
    exact .of_respond (.started hi (h.ph ▸ hp)) ⟨rfl, h.fn, rfl⟩ fun _ _ => ⟨rfl, rfl, rfl, rfl, rfl, rfl⟩
  | absorbed sym u hi hp hsym hl hu => exact hi ▸ h.follows_absorbed hp hsym hl hu
  | padded u hi hp hu => exact hi ▸ h.follows_padded hp hu
  | popped b hi hp hb hle => exact hi ▸ h.follows_popped hp hb hle

theorem AnswersAlike.responseOf_execUnder (h : AnswersAlike s t) (i : Instr) :
    responseOf (execUnder c i s) = responseOf (execUnder c i t) := by
  cases hs : execUnder c i s with
  | next s' =>
    obtain ⟨t', ht, hrsp, -⟩ := h.follows hs
    rw [ht]
    exact hrsp
  | fault | refused =>
    cases ht : execUnder c i t with
    | next t' =>
      obtain ⟨s', hs', -⟩ := h.symm.follows ht
      cases hs.symm.trans hs'
    | fault | refused => rfl

/-! ### Sequences of commands on twins -/

theorem responses_cons {i : Instr} (h : execUnder c i s = .next t) (is : List Instr) :
    (trace c (i :: is) s).map Prod.fst = ((trace c is t).map Prod.fst).map (t.rsp.toList ++ ·) := by
  rw [trace_cons_of_next h, Option.map_map, Option.map_map]
  rfl

theorem Twin.responses_eq (h : Twin s t) (is : List Instr) :
    (trace c is s).map Prod.fst = (trace c is t).map Prod.fst := by
  induction is generalizing s t with
  | nil => rfl
  | cons i is ih =>
    cases hs : execUnder c i s with
    | next s' =>
      obtain ⟨t', ht, hrsp, htwin⟩ := h.answersAlike.follows hs
      rw [responses_cons hs, responses_cons ht, hrsp, ih (htwin h)]
    | fault | refused =>
      cases ht : execUnder c i t with
      | next t' =>
        obtain ⟨s', hs', -⟩ := h.answersAlike.symm.follows ht
        cases hs.symm.trans hs'
      | fault | refused => rw [trace, trace, hs, ht]; rfl

end

/-! ### Steps -/

theorem AnswersAlike.withInputs {s t : State} (h : AnswersAlike s t) (rest : List HostEvent) :
    AnswersAlike { s with inputs := rest } { t with inputs := rest } :=
  ⟨⟨h.ph, h.fn, h.lerr⟩, h.absorb, h.done⟩

theorem AnswersAlike.responseOf_step {s t : State} (h : AnswersAlike s t) (hin : s.inputs = t.inputs) :
    responseOf (step s) = responseOf (step t) := by
  obtain ⟨hs, hstep⟩ | ⟨rest, hs, hstep⟩ | ⟨w, rest, why, hs, hd, hstep⟩ | ⟨w, rest, i, hs, hd, hstep⟩ := step_cases s
  all_goals rw [hstep]
  all_goals rw [hin] at hs
  · rw [step, nextEvent_nil t hs]
    rfl
  · rw [step_of_reset hs]
    rfl
  · rw [step_of_illegal hs hd]
    exact congrArg some (h.toSameStatus.sameResponse .illegalCmd 0)
  · rw [step_of_command hs hd]
    exact (h.withInputs rest).responseOf_execUnder i

/-- Settles O49: the answers look at State in `DONE` alone, and at schedule and accumulator never. -/
theorem stateIsNeverExposed : Obligations.StateIsNeverExposed := fun _ =>
  ⟨fun hne _ => AnswersAlike.responseOf_step ⟨⟨rfl, rfl, rfl⟩, fun _ => ⟨rfl, rfl⟩, fun hp => absurd hp hne⟩ rfl,
    fun _ _ => AnswersAlike.responseOf_step ⟨⟨rfl, rfl, rfl⟩, fun _ => ⟨rfl, rfl⟩, fun _ => ⟨rfl, rfl⟩⟩ rfl⟩

theorem Alike.twin {s t : State} (h : Alike s t) : Twin s t where
  ph := h.ph
  fn := h.fn
  lerr := h.lerr
  call hp := by
    obtain ⟨hH, hW, hacc, hlen, hpos, hoi⟩ := h.call hp
    exact ⟨hH, hW, hacc, hlen, hpos, hoi⟩

theorem Twin.alike {s t : State} (h : Twin s t) (hin : s.inputs = t.inputs) : Alike s t where
  ph := h.ph
  fn := h.fn
  lerr := h.lerr
  inputs := hin
  call hp := ⟨(h.call hp).H, (h.call hp).W, (h.call hp).acc, (h.call hp).len, (h.call hp).pos, (h.call hp).oi⟩

theorem Alike.withInputs {s t : State} (h : Alike s t) (rest : List HostEvent) :
    Alike { s with inputs := rest } { t with inputs := rest } :=
  ⟨h.ph, h.fn, h.lerr, rfl, h.call⟩

theorem Alike.withRsp {s t : State} (h : Alike s t) (r r' : Option Word) :
    Alike { s with rsp := r } { t with rsp := r' } :=
  ⟨h.ph, h.fn, h.lerr, h.inputs, h.call⟩

theorem Alike.command {c : Config} {i : Instr} {s t s' : State} (h : Alike s t)
    (hs : execUnder c i s = .next s') : ∃ t', execUnder c i t = .next t' ∧ s'.rsp = t'.rsp ∧ Alike s' t' := by
  obtain ⟨t', ht, hrsp, htwin⟩ := h.twin.answersAlike.follows hs
  have hin : s'.inputs = t'.inputs := by
    rw [(execUnder_keepsOtherRegisters hs).inputs, (execUnder_keepsOtherRegisters ht).inputs, h.inputs]
  exact ⟨t', ht, hrsp, (htwin h.twin).alike hin⟩

/-- R36: after a reset event no call is in progress, so the free values of the registers do not matter. -/
theorem alike_resetEvent {s t : State} (hin : s.inputs = t.inputs) : Alike (resetEvent s) (resetEvent t) where
  ph := rfl
  fn := rfl
  lerr := rfl
  inputs := hin
  call hp := by simp [inCall, resetEvent] at hp

/-- Settles O48: each event is answered alike, the commands by the registers of the call in progress alone. -/
theorem hiddenRegistersCannotBeSeen : Obligations.HiddenRegistersCannotBeSeen := by
  intro s t s' h hs'
  obtain ⟨hs, rfl⟩ | ⟨rest, hs, rfl⟩ | ⟨w, rest, why, hs, hd, rfl⟩ | ⟨w, rest, i, hs, hd, hi⟩ := step_next_cases hs'
  all_goals rw [h.inputs] at hs
  · exact ⟨_, nothingPresentedNothingDone t hs, rfl, h.withRsp none none⟩
  · exact ⟨_, step_of_reset hs, rfl, alike_resetEvent rfl⟩
  · exact ⟨_, step_of_illegal hs hd, congrArg some (h.twin.sameResponse .illegalCmd 0), (h.withInputs rest).withRsp _ _⟩
  · obtain ⟨t', ht, hrsp, halike⟩ := (h.withInputs rest).command hi
    exact ⟨t', (step_of_command hs hd).trans ht, hrsp, halike⟩

/-! ### Calls, R125, R196 -/

/-- R37: an accepted `START` leaves twins, with one answer, whatever came before. -/
theorem twin_start {s t : State} (hfn : s.fn = t.fn) (iv : DigestWords) :
    ((s.beginCall iv).respond .ok 0).rsp = ((t.beginCall iv).respond .ok 0).rsp ∧
      Twin ((s.beginCall iv).respond .ok 0) ((t.beginCall iv).respond .ok 0) := by
  have hst : SameStatus (s.beginCall iv) (t.beginCall iv) := ⟨rfl, hfn, rfl⟩
  exact ⟨congrArg some (hst.sameResponse .ok 0), ⟨rfl, hfn, rfl⟩, fun _ => ⟨rfl, rfl, rfl, rfl, rfl, rfl⟩⟩

theorem call_eq_start_cons (m : List Byte) :
    call m = .start .string :: (m.map (fun b => .push (symOfByte b)) ++ [.final] ++ List.replicate 20 .pop) := by
  rw [call_eq, List.singleton_append, List.cons_append, List.cons_append]

/-- Settles O24: the state after `START` is made of `IV`, zeros, `fn` and the model's fields. -/
theorem startErasesEarlierCalls : Obligations.StartErasesEarlierCalls := by
  intro s t hs ht hfn hinputs hresets
  have hstate : (s.beginCall Config.platform.iv).respond .ok 0 = (t.beginCall Config.platform.iv).respond .ok 0 := by
    simp only [State.beginCall, State.respond, responseWord, State.status, State.bound, hfn, hinputs, hresets]
  rw [exec_eq_execUnder, exec_eq_execUnder, execUnder_start_string _ hs, execUnder_start_string _ ht, hstate]

/-- Settles O55: `START` leaves twins, with one answer, and twins answer the rest of the call alike. -/
theorem callsAreIsolated : Obligations.CallsAreIsolated := by
  intro c m s t hs ht hfn
  obtain ⟨hrsp, htwin⟩ := twin_start hfn c.iv
  rw [call_eq_start_cons, responses_cons (execUnder_start_string c hs), responses_cons (execUnder_start_string c ht),
    hrsp, htwin.responses_eq]

end Sys2Proof.Machine
end

section
/-! PROOFS. Refused commands in a sequence, engines side by side, and the placeholder of entry 0 (R185, R212, R220). -/

namespace Sys2Proof.Machine

/-! ### A refused command in a sequence -/

/-- Settles O41: after `before` the refused command adds its response and changes nothing that follows. -/
theorem refusedCommandsAreTransparent : Obligations.RefusedCommandsAreTransparent := by
  intro c before after i j s u rs r hbefore hi
  rw [trace_append, trace_append, hbefore, Option.bind_some, Option.bind_some, trace_cons_of_refused c hi,
    Option.map_map, Option.map_map]
  congr 1
  funext a
  simp [Prod.map]

/-! ### Engines side by side -/

theorem stepEngine_of_next {k : Nat} {es : Engines} {s t : State} (hs : es[k]? = some s) (ht : step s = .next t) :
    stepEngine k es = some (.next (es.set k t)) := by
  simp only [stepEngine, hs, ht]

/-- R220: a step of the platform is a step of the engine that moves, put in its place. -/
theorem exists_step_of_stepEngine {k : Nat} {es es' : Engines} (h : stepEngine k es = some (.next es')) :
    ∃ s t, es[k]? = some s ∧ step s = .next t ∧ es' = es.set k t := by
  unfold stepEngine at h
  cases hs : es[k]? with
  | none => simp [hs] at h
  | some s =>
    cases ht : step s with
    | next t => exact ⟨s, t, rfl, ht, by simpa [hs, ht, eq_comm] using h⟩
    | fault r => simp [hs, ht] at h
    | refused r => simp [hs, ht] at h

/-- Settles O51: the step replaces the engine that moves, by what its own step makes of it. -/
theorem enginesShareNothing : Obligations.EnginesShareNothing := by
  intro k es fs es' h
  obtain ⟨s, t, hs, ht, rfl⟩ := exists_step_of_stepEngine h
  refine ⟨List.length_set, fun j hj => List.getElem?_set_ne hj.symm,
    fun hf => ⟨fs.set k t, stepEngine_of_next (hf.symm.trans hs) ht, ?_⟩⟩
  rw [List.getElem?_set_self', List.getElem?_set_self', hf]

/-! ### The placeholder -/

theorem run_placeholder (S : DigestWords) (p : List Byte) : run placeholder S p = S :=
  List.foldl_fixed (blocks p)

/-- Settles O56: the call computes `digest`, and the placeholder leaves `IV` as it is over every block. -/
theorem thePlaceholderDigestIsSerIV : Obligations.ThePlaceholderDigestIsSerIV := by
  refine ⟨fun c S X => ⟨placeholder, fnTable_zero c, rfl⟩, fun c m s hop hfn hle => ?_⟩
  have hF : boundFn c s = some placeholder := by rw [boundFn, hfn, Option.bind_some, fnTable_zero]
  obtain ⟨rs, t, htrace, -, -, hdata, -⟩ := callComputesTheDigest c placeholder m s hop hF hle
  exact ⟨rs, t, htrace, by rw [hdata, digest, run_placeholder]⟩

end Sys2Proof.Machine
end
